-- ==== Sys2Proof/Word.lean ====
section
/-! DEFINITION. The machine word, the image's byte and text (00_scope R8, R10, R11): every memory cell,
register, stack entry, operand word and the pc is an unsigned word of WORD_BITS = 16 bits. -/

namespace Sys2Proof

/-- A word: 16 bits, unsigned (R10). -/
abbrev Word := BitVec 16

/-- A byte of the program image; the codec is the only place bytes occur (R63). -/
abbrev Byte := BitVec 8

/-- The disassembler's text, as its characters in order (R233). -/
abbrev Text := List Char

end Sys2Proof
end

