-- ==== Sys2Proof/Config.lean ====
section
/-! DEFINITION. The parameters of the block (00_scope R8, 92_eei_decisions "Parameters left open") and the
spec's default for each. The spec fixes everything else, so there is no free value. A state carries one `Params`
(field `params`), because the spec says a model takes them as arguments (log 4). -/

namespace Sys2Proof

/-- NOT_HIGH: NOT's result for an operand of 32768 or more (43_alu R199, D9). -/
inductive NotHigh where
  /-- The 15-bit complement, the default. -/
  | mask15
  /-- The literal expression under 16-bit wrap-around. -/
  | wrap16
  /-- The model gives the step no meaning. -/
  | refuse
  deriving DecidableEq, Repr

/-- The five parameters a model takes as arguments (R8). -/
structure Params where
  /-- STACK_CAPACITY: `none` is unbounded, `some n` keeps at most `n` entries (D7). -/
  stackCapacity : Option Nat
  /-- CHAR_VALID, given by the words it refuses: inclusive ranges of character codes (D8, log 5). -/
  charInvalid : List (Nat × Nat)
  /-- NOT_HIGH (D9). -/
  notHigh : NotHigh
  /-- UNKNOWN_MNEMONIC, the disassembler's placeholder (D18). -/
  unknownMnemonic : Text
  /-- DEBUG_WRITE: `true` is present (D24). -/
  debugWrite : Bool
  deriving DecidableEq, Repr

/-- The defaults of R8: unbounded stack, every code valid but 0xD800 to 0xDFFF, MASK15, `???`, no debug ports. -/
def Params.standard : Params where
  stackCapacity := none
  charInvalid := [(0xD800, 0xDFFF)]
  notHigh := .mask15
  unknownMnemonic := ['?', '?', '?']
  debugWrite := false

end Sys2Proof
end

