-- ==== Sys2Proof/Machine/State.lean ====
section
/-! DEFINITION. The machine's state as plain data (10_state R30 to R47), the answers a STEP gives
(40_engine_cycle R130), and the state after reset. -/

namespace Sys2Proof.Machine

/-- The memory array M, as (index, word) pairs in one canonical form (`Memory.wf`): indices strictly rising and
below 32776, no word equal to 0, which is what an unlisted cell holds (R46, log 1, log 2). -/
abbrev Memory := List (Nat × Word)

/-- The engine's status, what the next STEP does (R44). -/
inductive Status where
  | ready
  | awaitInput
  | halted
  | faulted
  deriving DecidableEq, Repr

/-- The causes of a fault, in the order of their codes 0 to 7 (60_exceptions R281). -/
inductive FaultCause where
  | none
  | stackUnderflow
  | invalidCharacter
  | invalidOperand
  | addressOutOfRange
  | fetchOutOfRange
  | divideByZero
  | stackOverflow
  deriving DecidableEq, Repr

/-- A fault being raised: its cause and the word it reports (00_scope R14, 60_exceptions R281). -/
structure Trap where
  cause : FaultCause
  info : Word
  deriving DecidableEq, Repr

/-- Why a request is REJECTED (40_engine_cycle R130). -/
inductive RejectReason where
  | awaitingInput
  | notAwaitingInput
  | addressOutOfRange
  deriving DecidableEq, Repr

/-- What the block answers: `ok` to LOAD, the others to STEP (40_engine_cycle R130, 49_host_interface R250). -/
inductive Response where
  | ok
  /-- CONTINUE. -/
  | cont
  | halt
  | output (c : Word)
  | awaitInput (a : Word)
  | fault (cause : FaultCause) (info : Word)
  | rejected (reason : RejectReason)
  deriving DecidableEq, Repr

/-- Everything the machine holds (R46), and the model's own fields `response` and `params`. -/
structure State where
  /-- M[0..32775]; cells 32768 to 32775 are the registers r0 to r7 (R30, R32). -/
  mem : Memory
  /-- S, top of the stack first (R35, log 9). -/
  stack : List Word
  /-- The instruction pointer (R38, R39). -/
  pc : Word
  /-- The number of words the image loaded (R42). -/
  wordCount : Word
  /-- (R44) -/
  status : Status
  /-- IN's destination index, while status is AWAIT_INPUT (R44). -/
  pendingAddr : Word
  /-- The fault that stopped the engine (R44). -/
  faultCause : FaultCause
  /-- The word that fault reports (R44). -/
  faultInfo : Word
  /-- The model's own: the answer to the last LOAD or STEP request (log 6). -/
  response : Response
  /-- The model's own: the parameters of 00_scope R8, which nothing changes (log 4). -/
  params : Params
  deriving DecidableEq, Repr

/-- Why a step could stop the model without a next state. There is no such reason, so there is no constructor and
nothing raises one: every fault of the spec has an entry the spec describes and is taken as a next state
(60_exceptions R283, log 7). Safe. -/
inductive Fault where
  deriving DecidableEq, Repr

/-- Why a step has no meaning in the model. -/
inductive Refusal where
  /-- Raised by an arm of `exec` whose instruction has no meaning yet; no arm raises it now. Safe. -/
  | notModelled (mnemonic : String)
  /-- Raised by NOT of an operand of 32768 or more under NOT_HIGH = REFUSE, for which the spec says "the model
  gives the step no meaning" (43_alu R199, log 10); `b` is the operand. Safe. -/
  | notHighRefused (b : Word)
  deriving DecidableEq, Repr

/-- What executing an instruction answers. -/
abbrev Result := Host.Outcome State Fault Refusal

/-- The machine right after reset: the LOAD of an image of no words under the default parameters (R46,
70_reset_and_hazards R310, log 3). -/
def State.reset : State where
  mem := []
  stack := []
  pc := 0
  wordCount := 0
  status := .ready
  pendingAddr := 0
  faultCause := .none
  faultInfo := 0
  response := .ok
  params := Params.standard

end Sys2Proof.Machine
end

