-- ==== Sys2Proof/Machine/Flags.lean ====
section
/-! DEFINITION. The block has no flags or condition codes (10_state R41): a comparison's result is the word 1 or
0 in its destination, and a conditional jump tests an ordinary value. -/

namespace Sys2Proof.Machine

/-- A comparison's result as a word (43_alu R192, R193). -/
def truthWord (b : Bool) : Word := if b then 1 else 0

/-- A conditional jump's test: any non-zero value counts as true (41_control R152). -/
def wordTrue (v : Word) : Bool := decide (v ≠ 0)

end Sys2Proof.Machine
end

