-- ==== Sys2Proof/Machine/Ops.lean ====
section
/-! DEFINITION. The named operations over memory, registers, stack, pc and status, and taking a fault. Every
meaning is written with these. -/

namespace Sys2Proof.Machine

/-- The number of cells of the memory array (00_scope R8 ARRAY_WORDS). -/
def arrayWords : Nat := 32776

/-- The cell an index names: the word listed for it, or 0 (10_state R46). -/
def Memory.read : Memory → Nat → Word
  | [], _ => 0
  | (k, v) :: m, a => if k = a then v else Memory.read m a

/-- Lists a word for an index not listed yet, keeping the indices rising. -/
def Memory.insert : Memory → Nat → Word → Memory
  | [], a, v => [(a, v)]
  | (k, w) :: m, a, v => if a < k then (a, v) :: (k, w) :: m else (k, w) :: Memory.insert m a v

/-- The memory without an entry for an index: that cell holds 0. -/
def Memory.erase (m : Memory) (a : Nat) : Memory := m.filter (fun e => decide (e.1 ≠ a))

/-- Stores a word in a cell. -/
def Memory.write (m : Memory) (a : Nat) (v : Word) : Memory :=
  if v = 0 then m.erase a else (m.erase a).insert a v

/-- The canonical form from a bound up: every entry is a cell of the array at or above `lo`, indices strictly
rise, and no listed word is 0. -/
def Memory.wfFrom : Nat → Memory → Bool
  | _, [] => true
  | lo, (k, v) :: m =>
    decide (lo ≤ k) && decide (k < 32776) && decide (v ≠ 0) && Memory.wfFrom (k + 1) m

/-- The canonical form: equal memories are equal lists. -/
def Memory.wf (m : Memory) : Bool := Memory.wfFrom 0 m

/-- M[a] (00_scope R12). -/
def State.M (s : State) (a : Nat) : Word := s.mem.read a

/-- The index of register r: its cell in the one array (10_state R32). -/
def regIndex (r : Fin 8) : Nat := 32768 + r.val

/-- x[r], the content of register r (10_state R32). -/
def State.reg (s : State) (r : Fin 8) : Word := s.M (regIndex r)

/-- M[a] <- v; with a = 32768 + r this is x[r] <- v (00_scope R12). -/
def State.setM (s : State) (a : Nat) (v : Word) : State := { s with mem := s.mem.write a v }

/-- pc <- target (00_scope R14). -/
def State.setPc (s : State) (target : Word) : State := { s with pc := target }

/-- S becomes the given sequence. -/
def State.setStack (s : State) (st : List Word) : State := { s with stack := st }

/-- The status an outcome leaves and the answer it gives (40_engine_cycle R129). -/
def State.answer (s : State) (st : Status) (r : Response) : State := { s with status := st, response := r }

/-- The answer to a STEP that does nothing: only the answer itself (40_engine_cycle R120). -/
def State.respond (s : State) (r : Response) : State := { s with response := r }

/-- TAKING A FAULT (60_exceptions R283): M, S and pc keep their values of before the step, the status becomes
FAULTED, cause and info are recorded, and the answer is FAULT(cause, info). There is no handler, and no return
from a fault: only LOAD leaves FAULTED (R285, 70_reset_and_hazards R313). -/
def raise (t : Trap) (s : State) : Result :=
  .next { s with status := .faulted, faultCause := t.cause, faultInfo := t.info,
                 response := .fault t.cause t.info }

/-- `emit CONTINUE` (40_engine_cycle R129). -/
def emitContinue (s : State) : Result := .next (s.answer .ready .cont)

/-- `emit HALT` (40_engine_cycle R129). -/
def emitHalt (s : State) : Result := .next (s.answer .halted .halt)

/-- `emit OUTPUT(c)`: the engine stays READY (40_engine_cycle R129). -/
def emitOutput (c : Word) (s : State) : Result := .next (s.answer .ready (.output c))

/-- `emit AWAIT_INPUT(a)`: pending_addr <- a (40_engine_cycle R129). -/
def emitAwaitInput (a : Word) (s : State) : Result :=
  .next (State.answer { s with pendingAddr := a } .awaitInput (.awaitInput a))

/-- The pc past an instruction of n words: each of its words was fetched with a post-increment
(40_engine_cycle R121, R122). -/
def State.past (s : State) (n : Nat) : Word := s.pc + BitVec.ofNat 16 n

/-- Whether STACK_CAPACITY is finite and the stack holds that many entries (10_state R37, 41_control R154). -/
def State.stackFull (s : State) : Bool :=
  match s.params.stackCapacity with
  | none => false
  | some n => decide (s.stack.length = n)

/-- CHAR_VALID(c): no refused range holds c (00_scope R8, 44_io R220). -/
def charValid (p : Params) (c : Word) : Bool :=
  p.charInvalid.all (fun r => !(decide (r.1 ≤ c.toNat) && decide (c.toNat ≤ r.2)))

/-- STEP in AWAIT_INPUT does nothing and answers REJECTED(AWAITING_INPUT) (40_engine_cycle R120). -/
def answerAwaiting (s : State) : Result := .next (s.respond (.rejected .awaitingInput))

/-- STEP in HALTED does nothing and answers HALT (40_engine_cycle R120). -/
def answerHalted (s : State) : Result := .next (s.respond .halt)

/-- STEP in FAULTED does nothing and answers the recorded fault again (40_engine_cycle R120, 60_exceptions R285). -/
def answerFaulted (s : State) : Result := .next (s.respond (.fault s.faultCause s.faultInfo))

end Sys2Proof.Machine
end

