-- ==== Sys2Proof/Syntax.lean ====
section
/-! DEFINITION. The instructions: one constructor per row of spec/opcode_table.json (30_encoding R97), each
operand in the class its position's mode gives it (R92, R93). -/

namespace Sys2Proof

/-- A value-mode operand (R92, R124): the class of its operand word. -/
inductive Src where
  /-- A literal, 0 to 32767. -/
  | lit (n : BitVec 15)
  /-- A register selector, word 32768 + r. -/
  | reg (r : Fin 8)
  /-- A word 32776 to 65535: it encodes no value, and its use faults. -/
  | bad (w : Word)
  deriving DecidableEq, Repr

/-- An address-mode operand (R96, R125): a destination cell by its array index. -/
inductive Dst where
  /-- A general-memory cell, index 0 to 32767. -/
  | cell (n : BitVec 15)
  /-- A register, index 32768 + r. -/
  | reg (r : Fin 8)
  /-- An index 32776 to 65535: no cell, and its use faults. -/
  | bad (w : Word)
  deriving DecidableEq, Repr

/-- The instruction set: 22 opcodes and the fallback. A raw target (R126) is the word itself. -/
inductive Instr where
  | halt
  | set (a : Dst) (b : Src)
  | push (a : Src)
  | pop (a : Dst)
  | eq (a : Dst) (b c : Src)
  | gt (a : Dst) (b c : Src)
  | jmp (a : Src)
  | jt (a : Src) (b : Word)
  | jf (a : Src) (b : Word)
  | add (a : Dst) (b c : Src)
  | mul (a : Dst) (b c : Src)
  | mod (a : Dst) (b c : Src)
  | and (a : Dst) (b c : Src)
  | or (a : Dst) (b c : Src)
  | not (a : Dst) (b : Src)
  | rmem (a : Dst) (b : Src)
  | wmem (a b : Src)
  | call (a : Src)
  | ret
  | out (a : Src)
  /-- IN; the mnemonic itself is a Lean keyword. -/
  | inp (a : Dst)
  | nop
  /-- Any opcode word 22 to 65535 (R157). -/
  | unknown (op : Word)
  deriving DecidableEq, Repr

end Sys2Proof
end

