-- ==== Sys2Proof/Machine/Operands.lean ====
section
/-! DEFINITION. Resolving operands in their three modes (40_engine_cycle R124 to R126) and using the resolved
value or index in the rest of a meaning. A raw target is the word itself (R126) and needs no operation. -/

namespace Sys2Proof.Machine

/-- `val(w)` (R124): a literal is itself, a selector is the register's content as stored, and any other word
faults INVALID_OPERAND with that word. -/
def srcValue (o : Src) (s : State) : Except Trap Word :=
  match o with
  | .lit n => .ok (BitVec.ofNat 16 n.toNat)
  | .reg r => .ok (s.reg r)
  | .bad w => .error ⟨.invalidOperand, w⟩

/-- `adr(w)` (R125): the index of a cell, or ADDRESS_OUT_OF_RANGE with the word. -/
def dstIndex (o : Dst) : Except Trap Nat :=
  match o with
  | .cell n => .ok n.toNat
  | .reg r => .ok (regIndex r)
  | .bad w => .error ⟨.addressOutOfRange, w⟩

/-- Resolves a value-mode operand and goes on with its value, or takes its fault. -/
def withSrc (o : Src) (s : State) (k : Word → Result) : Result :=
  match srcValue o s with
  | .ok v => k v
  | .error t => raise t s

/-- Resolves an address-mode operand and goes on with its index, or takes its fault. -/
def withDst (o : Dst) (s : State) (k : Nat → Result) : Result :=
  match dstIndex o with
  | .ok a => k a
  | .error t => raise t s

/-- Checks a resolved RMEM or WMEM address against the array and goes on with its index (42_data_stack R173,
R174; D4). -/
def withAddress (a : Word) (s : State) (k : Nat → Result) : Result :=
  if 32775 < a.toNat then raise ⟨.addressOutOfRange, a⟩ s else k a.toNat

/-- `M[a] <- v; emit CONTINUE` at the end of an instruction of n words. -/
def storeAndContinue (s : State) (n : Nat) (a : Nat) (v : Word) : Result :=
  emitContinue ((s.setM a v).setPc (s.past n))

/-- `push(S, v)`, then the pc given, then `emit CONTINUE`, or STACK_OVERFLOW(v) on a full stack (10_state R37). -/
def pushAndContinue (s : State) (v target : Word) : Result :=
  if s.stackFull then raise ⟨.stackOverflow, v⟩ s
  else emitContinue ((s.setStack (v :: s.stack)).setPc target)

/-- `pop(S)` and the rest of the meaning with the popped word and the stack below it, or STACK_UNDERFLOW with the
opcode on an empty stack (10_state R37, 60_exceptions R281). -/
def withPop (opcode : Word) (s : State) (k : Word → List Word → Result) : Result :=
  match s.stack with
  | [] => raise ⟨.stackUnderflow, opcode⟩ s
  | v :: rest => k v rest

end Sys2Proof.Machine
end

