-- ==== Sys2Proof/Machine/Alu.lean ====
section
/-! DEFINITION. The ALU instructions (43_alu R190 to R203). Operands are 16-bit unsigned values; the exact natural
number is computed and narrowed at the end (R190). -/

namespace Sys2Proof.Machine

/-- (b + c) mod 32768, the sum exact (R194). -/
def aluAdd (b c : Word) : Word := BitVec.ofNat 16 ((b.toNat + c.toNat) % 32768)

/-- (b * c) mod 32768, the product exact (R195). -/
def aluMul (b c : Word) : Word := BitVec.ofNat 16 ((b.toNat * c.toNat) % 32768)

/-- The unsigned remainder, for a divisor that is not 0 (R196). -/
def aluMod (b c : Word) : Word := BitVec.ofNat 16 (b.toNat % c.toNat)

/-- Bitwise AND of all 16 bits (R197). -/
def aluAnd (b c : Word) : Word := b &&& c

/-- Bitwise OR of all 16 bits (R198). -/
def aluOr (b c : Word) : Word := b ||| c

/-- The 15-bit complement; above 32767 as NOT_HIGH says, with no value under REFUSE (R199, D9). -/
def aluNot (h : NotHigh) (b : Word) : Option Word :=
  if b.toNat ≤ 32767 then some (BitVec.ofNat 16 (32767 - b.toNat))
  else match h with
    | .mask15 => some (~~~b &&& 0x7FFF)
    | .wrap16 => some (~~~(BitVec.ofNat 16 ((32768 + b.toNat) % 65536)))
    | .refuse => none

/-- An F3AVV instruction that always has a result: the operands in the order a, b, c, then the store (R191). -/
def alu3 (f : Word → Word → Word) (a : Dst) (b c : Src) (s : State) : Result :=
  withDst a s fun d => withSrc b s fun x => withSrc c s fun y => storeAndContinue s 4 d (f x y)

/-- EQ (R192): all 16 bits are compared. -/
def execEq (a : Dst) (b c : Src) (s : State) : Result :=
  alu3 (fun x y => truthWord (decide (x = y))) a b c s

/-- GT (R193): strict and unsigned. -/
def execGt (a : Dst) (b c : Src) (s : State) : Result :=
  alu3 (fun x y => truthWord (decide (y.toNat < x.toNat))) a b c s

/-- ADD (R194). -/
def execAdd (a : Dst) (b c : Src) (s : State) : Result := alu3 aluAdd a b c s

/-- MUL (R195). -/
def execMul (a : Dst) (b c : Src) (s : State) : Result := alu3 aluMul a b c s

/-- MOD (R196): DIVIDE_BY_ZERO(b) after every operand is resolved (60_exceptions R282). -/
def execMod (a : Dst) (b c : Src) (s : State) : Result :=
  withDst a s fun d => withSrc b s fun x => withSrc c s fun y =>
    if y = 0 then raise ⟨.divideByZero, x⟩ s else storeAndContinue s 4 d (aluMod x y)

/-- AND (R197). -/
def execAnd (a : Dst) (b c : Src) (s : State) : Result := alu3 aluAnd a b c s

/-- OR (R198). -/
def execOr (a : Dst) (b c : Src) (s : State) : Result := alu3 aluOr a b c s

/-- NOT (R199): refused, by a name of its own, only where NOT_HIGH is REFUSE and the operand is 32768 or more. -/
def execNot (a : Dst) (b : Src) (s : State) : Result :=
  withDst a s fun d => withSrc b s fun x =>
    match aluNot s.params.notHigh x with
    | some r => storeAndContinue s 3 d r
    | none => .refused (.notHighRefused x)

end Sys2Proof.Machine
end

