-- ==== Sys2Proof/Machine/CharIo.lean ====
section
/-! DEFINITION. The character I/O instructions (44_io R220 to R222): each ends its step with an answer the host
acts on, and performs no I/O. -/

namespace Sys2Proof.Machine

/-- OUT (R220): INVALID_CHARACTER(c) for a code CHAR_VALID refuses. -/
def execOut (a : Src) (s : State) : Result :=
  withSrc a s fun c =>
    if charValid s.params c then emitOutput c (s.setPc (s.past 2)) else raise ⟨.invalidCharacter, c⟩ s

/-- IN (R221): names its destination to the host, which stores the word by SUPPLY_INPUT. -/
def execInp (a : Dst) (s : State) : Result :=
  withDst a s fun d => emitAwaitInput (BitVec.ofNat 16 d) (s.setPc (s.past 2))

end Sys2Proof.Machine
end

