-- ==== Sys2Proof/Machine/Control.lean ====
section
/-! DEFINITION. The control instructions (41_control R150 to R159). A meaning is given the state before the step,
so the index after an instruction of n words is `s.past n`. -/

namespace Sys2Proof.Machine

/-- HALT (R150): the pc moves past the opcode word and the engine halts. -/
def execHalt (s : State) : Result := emitHalt (s.setPc (s.past 1))

/-- JMP (R151): the target is value-resolved, and is not checked here (R158). -/
def execJmp (a : Src) (s : State) : Result :=
  withSrc a s fun t => emitContinue (s.setPc t)

/-- JT (R152): the condition is value-resolved, the target raw. -/
def execJt (a : Src) (b : Word) (s : State) : Result :=
  withSrc a s fun cond => emitContinue (s.setPc (if wordTrue cond then b else s.past 3))

/-- JF (R153): the condition is value-resolved, the target raw. -/
def execJf (a : Src) (b : Word) (s : State) : Result :=
  withSrc a s fun cond => emitContinue (s.setPc (if wordTrue cond then s.past 3 else b))

/-- CALL (R154): pushes the index after its two words and jumps. -/
def execCall (a : Src) (s : State) : Result :=
  withSrc a s fun t => pushAndContinue s (s.past 2) t

/-- RET (R155): pops the pc. -/
def execRet (s : State) : Result :=
  withPop 18 s fun v rest => emitContinue ((s.setStack rest).setPc v)

/-- NOP (R156). -/
def execNop (s : State) : Result := emitContinue (s.setPc (s.past 1))

/-- Any opcode word 22 to 65535 (R157): as HALT, and only the opcode word is fetched. -/
def execUnknown (_op : Word) (s : State) : Result := emitHalt (s.setPc (s.past 1))

end Sys2Proof.Machine
end

