-- ==== Sys2Proof/Machine/DataStack.lean ====
section
/-! DEFINITION. The data movement and stack instructions (42_data_stack R170 to R175). -/

namespace Sys2Proof.Machine

/-- SET (R170). -/
def execSet (a : Dst) (b : Src) (s : State) : Result :=
  withDst a s fun d => withSrc b s fun v => storeAndContinue s 3 d v

/-- PUSH (R171): pushes the resolved value. -/
def execPush (a : Src) (s : State) : Result :=
  withSrc a s fun v => pushAndContinue s v (s.past 2)

/-- POP (R172): the destination is checked before the stack. -/
def execPop (a : Dst) (s : State) : Result :=
  withDst a s fun d => withPop 3 s fun v rest => storeAndContinue (s.setStack rest) 2 d v

/-- RMEM (R173): reads the cell its value operand names, a register cell included. -/
def execRmem (a : Dst) (b : Src) (s : State) : Result :=
  withDst a s fun d => withSrc b s fun v => withAddress v s fun i => storeAndContinue s 3 d (s.M i)

/-- WMEM (R174): both operands are value-resolved; the first is the address written. -/
def execWmem (a b : Src) (s : State) : Result :=
  withSrc a s fun d => withSrc b s fun v => withAddress d s fun i => storeAndContinue s 3 i v

end Sys2Proof.Machine
end

