-- ==== Sys2Proof/WellFormed.lean ====
section
/-! DEFINITION. Which terms of the syntax stand for words: an operand classed as out of range is out of range,
and an unknown opcode is not one of the 22 (30_encoding R92, R97). -/

namespace Sys2Proof

/-- The third class of R92 holds only words above the register selectors. -/
def Src.wf : Src → Bool
  | .lit _ => true
  | .reg _ => true
  | .bad w => decide (32775 < w.toNat)

/-- An address-mode word is out of range only above 32775 (R96). -/
def Dst.wf : Dst → Bool
  | .cell _ => true
  | .reg _ => true
  | .bad w => decide (32775 < w.toNat)

/-- Every operand is well formed, and the fallback's opcode is 22 or above (R97). -/
def Instr.wf : Instr → Bool
  | .halt => true
  | .set a b => a.wf && b.wf
  | .push a => a.wf
  | .pop a => a.wf
  | .eq a b c => a.wf && b.wf && c.wf
  | .gt a b c => a.wf && b.wf && c.wf
  | .jmp a => a.wf
  | .jt a _ => a.wf
  | .jf a _ => a.wf
  | .add a b c => a.wf && b.wf && c.wf
  | .mul a b c => a.wf && b.wf && c.wf
  | .mod a b c => a.wf && b.wf && c.wf
  | .and a b c => a.wf && b.wf && c.wf
  | .or a b c => a.wf && b.wf && c.wf
  | .not a b => a.wf && b.wf
  | .rmem a b => a.wf && b.wf
  | .wmem a b => a.wf && b.wf
  | .call a => a.wf
  | .ret => true
  | .out a => a.wf
  | .inp a => a.wf
  | .nop => true
  | .unknown op => decide (21 < op.toNat)

end Sys2Proof
end

