-- ==== Sys2Proof/Decode.lean ====
section
/-! DEFINITION. Decoding words to instructions and encoding instructions to words (30_encoding R90 to R103).
Decoding never looks at the machine, and no operand word changes an instruction's length (R102). -/

namespace Sys2Proof

/-- Why a list of words is no instruction: it ends before the instruction does. -/
inductive DecodeError where
  /-- No opcode word. -/
  | noOpcode
  /-- The opcode's operand words run past the end; `present` of them are there. -/
  | missingOperand (op : Word) (present : Nat)
  deriving DecidableEq, Repr

/-- How many operand words follow an opcode word (R102): 0 for HALT, RET, NOP and every unknown opcode. -/
def operandCount (op : Word) : Nat :=
  match op.toNat with
  | 1 => 2
  | 2 => 1
  | 3 => 1
  | 4 => 3
  | 5 => 3
  | 6 => 1
  | 7 => 2
  | 8 => 2
  | 9 => 3
  | 10 => 3
  | 11 => 3
  | 12 => 3
  | 13 => 3
  | 14 => 2
  | 15 => 2
  | 16 => 2
  | 17 => 1
  | 19 => 1
  | 20 => 1
  | _ => 0

/-- The class of a value-mode operand word (R92). -/
def srcOfWord (w : Word) : Src :=
  if w.toNat < 32768 then .lit (BitVec.ofNat 15 w.toNat)
  else if w.toNat < 32776 then .reg (Fin.ofNat 8 (w.toNat - 32768))
  else .bad w

/-- The class of an address-mode operand word (R96). -/
def dstOfWord (w : Word) : Dst :=
  if w.toNat < 32768 then .cell (BitVec.ofNat 15 w.toNat)
  else if w.toNat < 32776 then .reg (Fin.ofNat 8 (w.toNat - 32768))
  else .bad w

/-- The instruction an opcode word and its operand words a, b, c make (R97); words past the opcode's arity are
not looked at. -/
def instrOfWords (op a b c : Word) : Instr :=
  match op.toNat with
  | 0 => .halt
  | 1 => .set (dstOfWord a) (srcOfWord b)
  | 2 => .push (srcOfWord a)
  | 3 => .pop (dstOfWord a)
  | 4 => .eq (dstOfWord a) (srcOfWord b) (srcOfWord c)
  | 5 => .gt (dstOfWord a) (srcOfWord b) (srcOfWord c)
  | 6 => .jmp (srcOfWord a)
  | 7 => .jt (srcOfWord a) b
  | 8 => .jf (srcOfWord a) b
  | 9 => .add (dstOfWord a) (srcOfWord b) (srcOfWord c)
  | 10 => .mul (dstOfWord a) (srcOfWord b) (srcOfWord c)
  | 11 => .mod (dstOfWord a) (srcOfWord b) (srcOfWord c)
  | 12 => .and (dstOfWord a) (srcOfWord b) (srcOfWord c)
  | 13 => .or (dstOfWord a) (srcOfWord b) (srcOfWord c)
  | 14 => .not (dstOfWord a) (srcOfWord b)
  | 15 => .rmem (dstOfWord a) (srcOfWord b)
  | 16 => .wmem (srcOfWord a) (srcOfWord b)
  | 17 => .call (srcOfWord a)
  | 18 => .ret
  | 19 => .out (srcOfWord a)
  | 20 => .inp (dstOfWord a)
  | 21 => .nop
  | _ => .unknown op

/-- The instruction of an opcode word whose operand words `ws` have all been fetched. -/
def instrOf (op : Word) (ws : List Word) : Instr :=
  instrOfWords op (ws.getD 0 0) (ws.getD 1 0) (ws.getD 2 0)

/-- The instruction a list of words begins with, and the words after it. Every opcode word decodes (R99), so
only a list that is too short is rejected. -/
def decode : List Word → Except DecodeError (Instr × List Word)
  | [] => .error .noOpcode
  | op :: ws =>
    if ws.length < operandCount op then .error (.missingOperand op ws.length)
    else .ok (instrOf op ws, ws.drop (operandCount op))

/-- The word of a value-mode operand. -/
def srcToWord : Src → Word
  | .lit n => BitVec.ofNat 16 n.toNat
  | .reg r => BitVec.ofNat 16 (32768 + r.val)
  | .bad w => w

/-- The word of an address-mode operand. -/
def dstToWord : Dst → Word
  | .cell n => BitVec.ofNat 16 n.toNat
  | .reg r => BitVec.ofNat 16 (32768 + r.val)
  | .bad w => w

/-- The opcode word of an instruction (R97). -/
def opcodeOf : Instr → Word
  | .halt => 0
  | .set _ _ => 1
  | .push _ => 2
  | .pop _ => 3
  | .eq _ _ _ => 4
  | .gt _ _ _ => 5
  | .jmp _ => 6
  | .jt _ _ => 7
  | .jf _ _ => 8
  | .add _ _ _ => 9
  | .mul _ _ _ => 10
  | .mod _ _ _ => 11
  | .and _ _ _ => 12
  | .or _ _ _ => 13
  | .not _ _ => 14
  | .rmem _ _ => 15
  | .wmem _ _ => 16
  | .call _ => 17
  | .ret => 18
  | .out _ => 19
  | .inp _ => 20
  | .nop => 21
  | .unknown op => op

/-- The operand words of an instruction, a then b then c (R90). -/
def operandsOf : Instr → List Word
  | .halt => []
  | .set a b => [dstToWord a, srcToWord b]
  | .push a => [srcToWord a]
  | .pop a => [dstToWord a]
  | .eq a b c => [dstToWord a, srcToWord b, srcToWord c]
  | .gt a b c => [dstToWord a, srcToWord b, srcToWord c]
  | .jmp a => [srcToWord a]
  | .jt a b => [srcToWord a, b]
  | .jf a b => [srcToWord a, b]
  | .add a b c => [dstToWord a, srcToWord b, srcToWord c]
  | .mul a b c => [dstToWord a, srcToWord b, srcToWord c]
  | .mod a b c => [dstToWord a, srcToWord b, srcToWord c]
  | .and a b c => [dstToWord a, srcToWord b, srcToWord c]
  | .or a b c => [dstToWord a, srcToWord b, srcToWord c]
  | .not a b => [dstToWord a, srcToWord b]
  | .rmem a b => [dstToWord a, srcToWord b]
  | .wmem a b => [srcToWord a, srcToWord b]
  | .call a => [srcToWord a]
  | .ret => []
  | .out a => [srcToWord a]
  | .inp a => [dstToWord a]
  | .nop => []
  | .unknown _ => []

/-- The words of an instruction: its opcode, then its operands (R90, R95). -/
def encode (i : Instr) : List Word := opcodeOf i :: operandsOf i

/-- The four words that `w` holds, 16 bits each from bit 0 up, of which only the low `nbits` bits count. -/
def tableWords (nbits w : Nat) : List Word :=
  let v := w % 2 ^ nbits
  [BitVec.ofNat 16 v, BitVec.ofNat 16 (v / 2 ^ 16), BitVec.ofNat 16 (v / 2 ^ 32), BitVec.ofNat 16 (v / 2 ^ 48)]

/-- The instruction the decoder reads from an instruction whose bits are `w` as spec/opcode_table.json numbers
them: word k is bits 16k + 15 to 16k, and bits at `nbits` and above are 0. -/
def decodeTableWord (nbits w : Nat) : Option Instr :=
  match decode (tableWords nbits w) with
  | .ok (i, _) => some i
  | .error _ => none

end Sys2Proof
end

