-- ==== Sys2Proof/Machine/Fetch.lean ====
section
/-! DEFINITION. Fetching an instruction's words (40_engine_cycle R121, R122), and placing words where the next
fetch finds them. -/

namespace Sys2Proof.Machine

/-- `fetch()` at index p (R122): the word there, or the index whose fetch faults. -/
def fetchWord (s : State) (p : Word) : Except Word Word :=
  if 32775 < p.toNat then .error p else .ok (s.M p.toNat)

/-- n fetches from index p on, in increasing order; the first that is out of range is the one reported (R127). -/
def fetchWords (s : State) : Nat → Word → Except Word (List Word)
  | 0, _ => .ok []
  | n + 1, p =>
    match fetchWord s p with
    | .error q => .error q
    | .ok w =>
      match fetchWords s n (p + 1) with
      | .error q => .error q
      | .ok ws => .ok (w :: ws)

/-- The instruction at the pc: its opcode word, then as many operand words as the opcode has (R121); or the index
at which a fetch faulted. -/
def fetchInstr (s : State) : Except Word Instr :=
  match fetchWord s s.pc with
  | .error p => .error p
  | .ok op =>
    match fetchWords s (operandCount op) (s.pc + 1) with
    | .error p => .error p
    | .ok ws => .ok (instrOf op ws)

/-- The fault of a fetch at index p (60_exceptions R281). -/
def fetchFault (p : Word) : Trap := ⟨.fetchOutOfRange, p⟩

/-- Stores words from an index on, as far as the array reaches. -/
def State.placeWords (s : State) : Nat → List Word → State
  | _, [] => s
  | a, w :: ws => State.placeWords (if a < 32776 then s.setM a w else s) (a + 1) ws

end Sys2Proof.Machine
end

