-- ==== Sys2Proof/Machine/Step.lean ====
section
/-! DEFINITION. One STEP request (40_engine_cycle R120, R121). -/

namespace Sys2Proof.Machine

/-- STEP: in READY, one instruction, whose words are all fetched before anything else happens; in every other
status, only the answer. -/
def step (s : State) : Host.Outcome State Fault Refusal :=
  match s.status with
  | .ready =>
    match fetchInstr s with
    | .ok i => exec i s
    | .error p => raise (fetchFault p) s
  | .awaitInput => answerAwaiting s
  | .halted => answerHalted s
  | .faulted => answerFaulted s

/-- `s` with the instruction whose bits are `w` (numbered as spec/opcode_table.json numbers them) stored at the pc
and the engine ready to fetch it: the placing of a program, which on this machine LOAD does (log 3). -/
def State.withFetchWord (s : State) (nbits w : Nat) : State :=
  { s.placeWords s.pc.toNat (tableWords nbits w) with status := .ready }

end Sys2Proof.Machine
end

