-- ==== Sys2Proof/Machine/Introspect.lean ====
section
/-! DEFINITION. The introspection layer: the instruction-length decoder and the disassembler (48_introspection
R230 to R238). Both read the state and change nothing (R236). -/

namespace Sys2Proof.Machine

/-- INSTRUCTION_LENGTH(addr) (R230); `none` is the answer OUT_OF_RANGE. -/
def instructionLength (s : State) (addr : Word) : Option Nat :=
  if 32775 < addr.toNat then none else some (1 + operandCount (s.M addr.toNat))

/-- The upper-case mnemonic of a defined opcode (30_encoding R97); `none` for the words 22 to 65535. -/
def mnemonicOf (op : Word) : Option Text :=
  match op.toNat with
  | 0 => some ['H', 'A', 'L', 'T']
  | 1 => some ['S', 'E', 'T']
  | 2 => some ['P', 'U', 'S', 'H']
  | 3 => some ['P', 'O', 'P']
  | 4 => some ['E', 'Q']
  | 5 => some ['G', 'T']
  | 6 => some ['J', 'M', 'P']
  | 7 => some ['J', 'T']
  | 8 => some ['J', 'F']
  | 9 => some ['A', 'D', 'D']
  | 10 => some ['M', 'U', 'L']
  | 11 => some ['M', 'O', 'D']
  | 12 => some ['A', 'N', 'D']
  | 13 => some ['O', 'R']
  | 14 => some ['N', 'O', 'T']
  | 15 => some ['R', 'M', 'E', 'M']
  | 16 => some ['W', 'M', 'E', 'M']
  | 17 => some ['C', 'A', 'L', 'L']
  | 18 => some ['R', 'E', 'T']
  | 19 => some ['O', 'U', 'T']
  | 20 => some ['I', 'N']
  | 21 => some ['N', 'O', 'P']
  | _ => none

/-- One operand word as text: `r0` to `r7` for a register selector, else its decimal numeral (R232). -/
def render (w : Word) : Text :=
  if 32768 ≤ w.toNat ∧ w.toNat ≤ 32775 then 'r' :: Nat.toDigits 10 (w.toNat - 32768)
  else Nat.toDigits 10 w.toNat

/-- The operands of an instruction as text: n words from index a on, one space before each (R233). -/
def renderOperands (s : State) : Nat → Nat → Text
  | _, 0 => []
  | a, n + 1 => ' ' :: render (s.M a) ++ renderOperands s (a + 1) n

/-- DISASSEMBLE(addr) (R233, R234); `none` is the answer OUT_OF_RANGE. -/
def disassemble (s : State) (addr : Word) : Option Text :=
  if 32775 < addr.toNat then none
  else
    let op := s.M addr.toNat
    match mnemonicOf op with
    | none => some s.params.unknownMnemonic
    | some text =>
      if 32775 < addr.toNat + operandCount op then none
      else some (text ++ renderOperands s (addr.toNat + 1) (operandCount op))

end Sys2Proof.Machine
end

