-- ==== Sys2Proof/Machine/Load.lean ====
section
/-! DEFINITION. The codec (49_host_interface R251, R252) and LOAD, the block's only reset (R253,
70_reset_and_hazards R310). -/

namespace Sys2Proof.Machine

/-- The words of an image: pairs of bytes, low byte first; a trailing odd byte is dropped (R251, R252). -/
def imageWords : List Byte → List Word
  | lo :: hi :: rest => BitVec.ofNat 16 (lo.toNat + 256 * hi.toNat) :: imageWords rest
  | [_] => []
  | [] => []

/-- The memory that holds the given words from an index on and 0 everywhere else. -/
def Memory.ofWords : Nat → List Word → Memory
  | _, [] => []
  | a, w :: ws => if w = 0 then Memory.ofWords (a + 1) ws else (a, w) :: Memory.ofWords (a + 1) ws

/-- LOAD(B) for a block with the given parameters: nothing of an earlier run survives (R253,
70_reset_and_hazards R312). -/
def load (p : Params) (bytes : List Byte) : State :=
  let words := (imageWords bytes).take 32768
  { mem := Memory.ofWords 0 words
    stack := []
    pc := 0
    wordCount := BitVec.ofNat 16 words.length
    status := .ready
    pendingAddr := 0
    faultCause := .none
    faultInfo := 0
    response := .ok
    params := p }

end Sys2Proof.Machine
end

