-- ==== Sys2Proof/Machine/Ports.lean ====
section
/-! DEFINITION. The block's ports (49_host_interface R250): every request a host can make once a machine exists,
with its one answer (R263). -/

namespace Sys2Proof.Machine

/-- A request on one of the ports (R250). -/
inductive Request where
  | load (bytes : List Byte)
  | step
  | supplyInput (addr value : Word)
  | instructionLength (addr : Word)
  | disassemble (addr : Word)
  | readRegs
  | readPc
  | readMem
  | readStack
  | readWordCount
  | readStatus
  | writeReg (i : Nat) (v : Word)
  | writeMem (i : Nat) (v : Word)
  | writeStack (j : Nat) (v : Word)
  | writePc (v : Word)
  deriving DecidableEq, Repr

/-- What a port answers (R250, R261, R262). -/
inductive Reply where
  /-- OK. -/
  | ok
  /-- The answer of a STEP. -/
  | step (r : Response)
  /-- REJECTED(reason), from SUPPLY_INPUT. -/
  | rejected (reason : RejectReason)
  /-- REJECTED, from a debug write port: an index out of range (log 11). -/
  | badIndex
  /-- The port does not exist: DEBUG_WRITE is absent (log 11). -/
  | noPort
  | length (n : Nat)
  | text (t : Text)
  | outOfRange
  | word (w : Word)
  | words (ws : List Word)
  /-- READ_STATUS's four fields, status and cause as their codes. -/
  | status (st : BitVec 2) (pendingAddr : Word) (cause : BitVec 3) (info : Word)
  deriving DecidableEq, Repr

/-- A request served: its reply and the state after it; or, for a STEP the model gives no meaning, the refusal. -/
inductive Served where
  | reply (r : Reply) (s : State)
  | stopped (r : Refusal)
  deriving DecidableEq, Repr

/-- SUPPLY_INPUT(addr, value): a raw write at the index the host passes (R257, D14). -/
def supplyInput (addr value : Word) (s : State) : Served :=
  if s.status ≠ .awaitInput then .reply (.rejected .notAwaitingInput) s
  else if 32775 < addr.toNat then .reply (.rejected .addressOutOfRange) s
  else .reply .ok { s.setM addr.toNat value with status := .ready }

/-- READ_REGS (R261). -/
def readRegs (s : State) : List Word := (List.finRange 8).map s.reg

/-- READ_MEM: the general memory, without the register cells (R261). -/
def readMem (s : State) : List Word := (List.range 32768).map s.M

/-- READ_STACK: bottom entry first (R261, D23). -/
def readStack (s : State) : List Word := s.stack.reverse

/-- The codes by which READ_STATUS shows a status (10_state R44). -/
def statusCode : Status → BitVec 2
  | .ready => 0
  | .awaitInput => 1
  | .halted => 2
  | .faulted => 3

/-- The codes of the fault causes (60_exceptions R281). -/
def causeCode : FaultCause → BitVec 3
  | .none => 0
  | .stackUnderflow => 1
  | .invalidCharacter => 2
  | .invalidOperand => 3
  | .addressOutOfRange => 4
  | .fetchOutOfRange => 5
  | .divideByZero => 6
  | .stackOverflow => 7

/-- READ_STATUS: the four status fields (R261). -/
def readStatus (s : State) : Reply :=
  .status (statusCode s.status) s.pendingAddr (causeCode s.faultCause) s.faultInfo

/-- A debug write (R262): no port when DEBUG_WRITE is absent, REJECTED for an index out of range. -/
def debugWrite (inRange : Bool) (s t : State) : Served :=
  if s.params.debugWrite then (if inRange then .reply .ok t else .reply .badIndex s) else .reply .noPort s

/-- WRITE_REG(i, v) (R262). -/
def writeReg (i : Nat) (v : Word) (s : State) : Served :=
  debugWrite (decide (i < 8)) s (s.setM (32768 + i) v)

/-- WRITE_MEM(i, v) (R262). -/
def writeMem (i : Nat) (v : Word) (s : State) : Served :=
  debugWrite (decide (i < 32768)) s (s.setM i v)

/-- WRITE_STACK(j, v): replaces the entry j places above the bottom (R262). -/
def writeStack (j : Nat) (v : Word) (s : State) : Served :=
  debugWrite (decide (j < s.stack.length)) s (s.setStack (s.stack.set (s.stack.length - 1 - j) v))

/-- WRITE_PC(v) (R262). -/
def writePc (v : Word) (s : State) : Served := debugWrite true s (s.setPc v)

/-- A STEP request's reply is the answer the step leaves (R250, 40_engine_cycle R130). -/
def serveStep (s : State) : Served :=
  match step s with
  | .next t => .reply (.step t.response) t
  | .refused r => .stopped r
  | .fault r => nomatch r

/-- A query's reply: the state is as it was (48_introspection R236, 49_host_interface R260). -/
def answerQuery {α : Type} (a : Option α) (f : α → Reply) (s : State) : Served :=
  match a with
  | some x => .reply (f x) s
  | none => .reply .outOfRange s

/-- One request served to completion (R250, R263). -/
def serve (r : Request) (s : State) : Served :=
  match r with
  | .load bytes => .reply .ok (load s.params bytes)
  | .step => serveStep s
  | .supplyInput addr value => supplyInput addr value s
  | .instructionLength addr => answerQuery (instructionLength s addr) .length s
  | .disassemble addr => answerQuery (disassemble s addr) .text s
  | .readRegs => .reply (.words (readRegs s)) s
  | .readPc => .reply (.word s.pc) s
  | .readMem => .reply (.words (readMem s)) s
  | .readStack => .reply (.words (readStack s)) s
  | .readWordCount => .reply (.word s.wordCount) s
  | .readStatus => .reply (readStatus s) s
  | .writeReg i v => writeReg i v s
  | .writeMem i v => writeMem i v s
  | .writeStack j v => writeStack j v s
  | .writePc v => writePc v s

end Sys2Proof.Machine
end

