-- ==== Sys2Proof/Safety.lean ====
section
/-! DEFINITION. What the claims are stated in: the invariant of the machine, the end of a run, and what two states
have in common across a step. -/

namespace Sys2Proof.Machine

/-- Parameter values the spec allows (92_eei_decisions, "Parameters left open"): a finite capacity is at least 1,
and the placeholder is a non-empty text with no space that is none of the 22 mnemonics. -/
def paramsAllowed (p : Params) : Prop :=
  p.stackCapacity ≠ some 0 ∧ p.unknownMnemonic ≠ [] ∧ ' ' ∉ p.unknownMnemonic ∧
    ∀ op : Word, mnemonicOf op ≠ some p.unknownMnemonic

/-- The stack holds no more entries than STACK_CAPACITY (10_state R37). -/
def withinCapacity (s : State) : Prop := ∀ n, s.params.stackCapacity = some n → s.stack.length ≤ n

/-- The last answer agrees with the status: READY follows neither HALT nor FAULT, and each other status
follows its own answer (40_engine_cycle R120, R129). -/
def answerAgrees (s : State) : Prop :=
  match s.status with
  | .ready => s.response ≠ .halt ∧ ∀ c i, s.response ≠ .fault c i
  | .awaitInput => s.response = .awaitInput s.pendingAddr ∨ s.response = .rejected .awaitingInput
  | .halted => s.response = .halt
  | .faulted => s.response = .fault s.faultCause s.faultInfo

/-- The invariant every request keeps: memory in its canonical form, word_count and pending_addr in the ranges
10_state R42 and R44 give, a fault recorded exactly while FAULTED, the stack within its capacity, and the last
answer the one the status calls for. -/
structure Sound (s : State) : Prop where
  memory : s.mem.wf = true
  wordCount : s.wordCount.toNat ≤ 32768
  pendingAddr : s.pendingAddr.toNat ≤ 32775
  faultRecorded : s.status = .faulted ↔ s.faultCause ≠ .none
  noFaultNoInfo : s.faultCause = .none → s.faultInfo = 0
  capacity : withinCapacity s
  answer : answerAgrees s

/-- The run has ended: it answered HALT or FAULT (49_host_interface R265). -/
def Ended (s : State) : Prop := s.status = .halted ∨ s.status = .faulted

/-- What no instruction touches: the word count and the parameters (10_state R42, R47). -/
def sameFixed (s t : State) : Prop := t.wordCount = s.wordCount ∧ t.params = s.params

/-- The status registers a step leaves alone unless it faults or asks for input (40_engine_cycle R129). -/
def sameRecords (s t : State) : Prop :=
  t.pendingAddr = s.pendingAddr ∧ t.faultCause = s.faultCause ∧ t.faultInfo = s.faultInfo

/-- A step completed with CONTINUE (40_engine_cycle R129): READY, that answer, and no record touched. -/
def continued (s t : State) : Prop :=
  t.status = .ready ∧ t.response = .cont ∧ sameRecords s t ∧ sameFixed s t

/-- A step that took a fault (60_exceptions R283): cause, info and answer recorded, all else as before. -/
def faultedWith (s t : State) (cause : FaultCause) (info : Word) : Prop :=
  t.status = .faulted ∧ t.faultCause = cause ∧ t.faultInfo = info ∧ t.response = .fault cause info ∧
    t.mem = s.mem ∧ t.stack = s.stack ∧ t.pc = s.pc ∧ t.pendingAddr = s.pendingAddr ∧ sameFixed s t

/-- Every cell but the one at index d holds what it held. -/
def sameCellsBut (d : Nat) (s t : State) : Prop := ∀ k, k ≠ d → t.M k = s.M k

/-- Every cell holds what it held. -/
def sameCells (s t : State) : Prop := ∀ k, t.M k = s.M k

/-- The words ws stand in the array from index p on. -/
def wordsAt (s : State) (p : Nat) (ws : List Word) : Prop :=
  p + ws.length ≤ 32776 ∧ ∀ k (h : k < ws.length), s.M (p + k) = ws[k]

/-- Two states a program cannot tell apart: the same cells, stack, pc and parameters (10_state R45). -/
def sameProgramView (s t : State) : Prop :=
  s.mem = t.mem ∧ s.stack = t.stack ∧ s.pc = t.pc ∧ s.params = t.params

/-- Serving requests one after another; `none` if the model gives one no meaning (49_host_interface R263). -/
def serveAll : List Request → State → Option State
  | [], s => some s
  | r :: rs, s =>
    match serve r s with
    | .reply _ t => serveAll rs t
    | .stopped _ => none

/-- The index of the one cell an instruction stores to, computed as its meaning computes it: the address-mode
destination, or WMEM's value-resolved address; `none` if it stores to no cell (20_memory R62, R66). -/
def storedAt (i : Instr) (s : State) : Option Nat :=
  match i with
  | .set a _ => (dstIndex a).toOption
  | .pop a => (dstIndex a).toOption
  | .eq a _ _ => (dstIndex a).toOption
  | .gt a _ _ => (dstIndex a).toOption
  | .add a _ _ => (dstIndex a).toOption
  | .mul a _ _ => (dstIndex a).toOption
  | .mod a _ _ => (dstIndex a).toOption
  | .and a _ _ => (dstIndex a).toOption
  | .or a _ _ => (dstIndex a).toOption
  | .not a _ => (dstIndex a).toOption
  | .rmem a _ => (dstIndex a).toOption
  | .wmem a _ => (srcValue a s).toOption.map BitVec.toNat
  | .halt => none
  | .push _ => none
  | .jmp _ => none
  | .jt _ _ => none
  | .jf _ _ => none
  | .call _ => none
  | .ret => none
  | .out _ => none
  | .inp _ => none
  | .nop => none
  | .unknown _ => none

/-- The instructions that move the stack: PUSH and CALL push, POP and RET pop (10_state R35). -/
def movesStack : Instr → Bool
  | .push _ => true
  | .call _ => true
  | .pop _ => true
  | .ret => true
  | .halt => false
  | .set _ _ => false
  | .eq _ _ _ => false
  | .gt _ _ _ => false
  | .jmp _ => false
  | .jt _ _ => false
  | .jf _ _ => false
  | .add _ _ _ => false
  | .mul _ _ _ => false
  | .mod _ _ _ => false
  | .and _ _ _ => false
  | .or _ _ _ => false
  | .not _ _ => false
  | .rmem _ _ => false
  | .wmem _ _ => false
  | .out _ => false
  | .inp _ => false
  | .nop => false
  | .unknown _ => false

/-- The instruction takes the fault `cause` with `info` (60_exceptions R283). -/
def takesFault (i : Instr) (s : State) (cause : FaultCause) (info : Word) : Prop :=
  ∃ t, exec i s = .next t ∧ faultedWith s t cause info

/-- The instruction, n words long, completes with CONTINUE having stored v in cell d and nothing in any other
cell, with the stack st after it. -/
def completesStoring (i : Instr) (s : State) (n d : Nat) (v : Word) (st : List Word) : Prop :=
  ∃ t, exec i s = .next t ∧ continued s t ∧ t.M d = v ∧ sameCellsBut d s t ∧ t.stack = st ∧
    t.pc = s.pc + BitVec.ofNat 16 n

/-- The instruction completes with CONTINUE, no cell changed, the stack st and the pc `target` after it. -/
def completesAt (i : Instr) (s : State) (target : Word) (st : List Word) : Prop :=
  ∃ t, exec i s = .next t ∧ continued s t ∧ sameCells s t ∧ t.stack = st ∧ t.pc = target

/-- The instruction completes as a transfer to `target`: as `completesAt`, and a target outside the array is
found only by the fetch of the next STEP (41_control R158, D20). -/
def transfersTo (i : Instr) (s : State) (target : Word) (st : List Word) : Prop :=
  ∃ t, exec i s = .next t ∧ continued s t ∧ sameCells s t ∧ t.stack = st ∧ t.pc = target ∧
    (32775 < target.toNat → ∃ u, step t = .next u ∧ faultedWith t u .fetchOutOfRange target)

/-- The instruction, one word long, halts: no cell, stack entry or record changes, and every later STEP answers
HALT and leaves the state as it is (41_control R150, 40_engine_cycle R120). -/
def halts (i : Instr) (s : State) : Prop :=
  ∃ t, exec i s = .next t ∧ t.status = .halted ∧ t.response = .halt ∧ sameRecords s t ∧ sameFixed s t ∧
    sameCells s t ∧ t.stack = s.stack ∧ t.pc = s.pc + 1 ∧ step t = .next t

/-- An F3AVV instruction with opcode `code` (43_alu R190, R191): its words; the faults of its operands in the order
a, b, c; and that it completes with the word of f of its operands' values in its destination, whenever all three
operands resolve and `defined` holds of the values. -/
def storesResult (mk : Dst → Src → Src → Instr) (code : Word) (defined : Nat → Nat → Prop)
    (f : Nat → Nat → Nat) : Prop :=
  ∀ (a : Dst) (b c : Src) (s : State),
    encode (mk a b c) = [code, dstToWord a, srcToWord b, srcToWord c] ∧
    (∀ w, a = .bad w → takesFault (mk a b c) s .addressOutOfRange w) ∧
    (∀ d w, dstIndex a = .ok d → b = .bad w → takesFault (mk a b c) s .invalidOperand w) ∧
    (∀ d x w, dstIndex a = .ok d → srcValue b s = .ok x → c = .bad w →
      takesFault (mk a b c) s .invalidOperand w) ∧
    ∀ d x y, dstIndex a = .ok d → srcValue b s = .ok x → srcValue c s = .ok y → defined x.toNat y.toNat →
      completesStoring (mk a b c) s 4 d (BitVec.ofNat 16 (f x.toNat y.toNat)) s.stack

end Sys2Proof.Machine
end

