-- ==== Sys2Proof/Certificates/Slice0/Obligations.lean ====
section
/-! DEFINITION. The statements for the provers. Each docstring names the rule of spec/ it formalises. Statements
quantify over every state, so over every setting of the parameters of 00_scope R8 (log 4). -/

open Sys2Proof Sys2Proof.Machine

/-! ### Reset, LOAD and the codec -/

/-- The model's `State.reset` is what LOAD leaves for an image of no bytes under the default parameters (the
model's choice of image, log 3): every cell and register 0, the stack empty, pc 0, READY, nothing recorded. -/
def Obligations.ResetIsTheLoadOfAnEmptyImage : Prop :=
  State.reset = load Params.standard [] ∧ (∀ a, State.reset.M a = 0) ∧ (∀ r, State.reset.reg r = 0) ∧
    State.reset.stack = [] ∧ State.reset.pc = 0 ∧ State.reset.wordCount = 0 ∧ State.reset.status = .ready ∧
    State.reset.pendingAddr = 0 ∧ State.reset.faultCause = .none ∧ State.reset.faultInfo = 0

/-- The invariant holds at reset, and the default parameters are allowed ones. -/
def Obligations.ResetSatisfiesTheInvariant : Prop := Sound State.reset ∧ paramsAllowed State.reset.params

/-- LOAD, in any status, builds the state of 10_state R46 from the image's words, of which those beyond 32768 are
dropped (49_host_interface R253, 70_reset_and_hazards R312). -/
def Obligations.LoadBuildsTheResetState : Prop :=
  ∀ (s : State) (bytes : List Byte), ∃ t, serve (.load bytes) s = .reply .ok t ∧
    t.wordCount.toNat = min (imageWords bytes).length 32768 ∧
    (∀ i, i < min (imageWords bytes).length 32768 → t.M i = (imageWords bytes).getD i 0) ∧
    (∀ i, min (imageWords bytes).length 32768 ≤ i → t.M i = 0) ∧ (∀ r, t.reg r = 0) ∧
    t.stack = [] ∧ t.pc = 0 ∧ t.status = .ready ∧ t.pendingAddr = 0 ∧ t.faultCause = .none ∧ t.faultInfo = 0

/-- The codec (49_host_interface R251): half as many words as bytes, each pair low byte first. -/
def Obligations.ImageBytesPairLowByteFirst : Prop :=
  ∀ bytes : List Byte, (imageWords bytes).length = bytes.length / 2 ∧
    ∀ i, i < bytes.length / 2 →
      (imageWords bytes).getD i 0 =
        BitVec.ofNat 16 ((bytes.getD (2 * i) 0).toNat + 256 * (bytes.getD (2 * i + 1) 0).toNat)

/-- Codec properties (49_host_interface R252): an even-length image is given back by splitting each word into its
low and high byte, a trailing odd byte is dropped, and no bytes give no words. -/
def Obligations.ReencodingAnEvenImageGivesItBack : Prop :=
  imageWords [] = [] ∧ ∀ bytes : List Byte, bytes.length % 2 = 0 →
    (imageWords bytes).flatMap (fun w => [BitVec.ofNat 8 (w.toNat % 256), BitVec.ofNat 8 (w.toNat / 256)]) = bytes ∧
      ∀ x, imageWords (bytes ++ [x]) = imageWords bytes

/-! ### Encoding -/

/-- The three operand modes on every operand word (40_engine_cycle R124, R125, R126). -/
def Obligations.OperandWordsResolveByTheirMode : Prop :=
  ∀ (w : Word) (s : State),
    srcValue (srcOfWord w) s =
      (if w.toNat ≤ 32767 then .ok w
       else if w.toNat ≤ 32775 then .ok (s.M w.toNat)
       else .error ⟨.invalidOperand, w⟩) ∧
    dstIndex (dstOfWord w) =
      (if w.toNat ≤ 32775 then .ok w.toNat else .error ⟨.addressOutOfRange, w⟩) ∧
    ∀ a, instrOf 7 [a, w] = .jt (srcOfWord a) w ∧ instrOf 8 [a, w] = .jf (srcOfWord a) w

/-- Words the spec writes out decode to the instructions it says they are (30_encoding R97, R105, 48_introspection
R233, 95_test_vectors E6). -/
def Obligations.SpecWordsDecodeAsWritten : Prop :=
  decode [9, 32768, 32769, 4] = .ok (.add (.reg 0) (.reg 1) (.lit 4), []) ∧
  decode [7, 32768, 32769] = .ok (.jt (.reg 0) 32769, []) ∧
  decode [16, 100, 40000] = .ok (.wmem (.lit 100) (.bad 40000), []) ∧
  decode [3, 100, 0] = .ok (.pop (.cell 100), [0]) ∧
  decode [19, 32768] = .ok (.out (.reg 0), []) ∧
  decode [22, 1, 2] = .ok (.unknown 22, [1, 2])

/-- Decoding an encoded well-formed instruction, whatever words follow it, gives it back with those words. -/
def Obligations.DecodingAnEncodedInstructionGivesItBack : Prop :=
  ∀ (i : Instr) (rest : List Word), i.wf = true → decode (encode i ++ rest) = .ok (i, rest)

/-- What the decoder reads is well formed and encodes to exactly the words read: no word has two meanings and no
bit of one is dropped (30_encoding R98, R103). -/
def Obligations.DecodedInstructionsEncodeToTheirWords : Prop :=
  ∀ (ws : List Word) (i : Instr) (rest : List Word),
    decode ws = .ok (i, rest) → i.wf = true ∧ encode i ++ rest = ws

/-- The length rule (30_encoding R102): the operand count of every opcode word, and that an instruction is its
opcode word and that many words, whatever they hold. -/
def Obligations.LengthIsFixedByTheOpcodeWord : Prop :=
  ∀ op : Word,
    operandCount op =
      (if op.toNat ∈ [2, 3, 6, 17, 19, 20] then 1
       else if op.toNat ∈ [1, 7, 8, 14, 15, 16] then 2
       else if op.toNat ∈ [4, 5, 9, 10, 11, 12, 13] then 3
       else 0) ∧
    (∀ ws, operandCount op ≤ ws.length → ∃ i, decode (op :: ws) = .ok (i, ws.drop (operandCount op)) ∧
      (encode i).length = 1 + operandCount op) ∧
    ∀ (s : State) (addr : Word), addr.toNat ≤ 32775 → s.M addr.toNat = op →
      instructionLength s addr = some (1 + operandCount op)

/-! ### STEP -/

/-- A step runs the decoded instruction: in READY, when the words at the pc decode to i, STEP is `exec i`
(40_engine_cycle R121, R123). Nothing is added around it: a meaning moves the pc past its own words. -/
def Obligations.StepRunsTheDecodedInstruction : Prop :=
  ∀ (s : State) (ws : List Word) (i : Instr) (rest : List Word), s.status = .ready →
    wordsAt s s.pc.toNat ws → decode ws = .ok (i, rest) → step s = exec i s

/-- Fetch faults (40_engine_cycle R122, 60_exceptions R281, R282): a pc outside the array, or an instruction whose
words run past index 32775, faults FETCH_OUT_OF_RANGE with the index of the failed fetch, before any operand is
looked at. -/
def Obligations.FetchOutsideTheArrayFaults : Prop :=
  ∀ s : State, s.status = .ready →
    (32775 < s.pc.toNat → ∃ t, step s = .next t ∧ faultedWith s t .fetchOutOfRange s.pc) ∧
    (s.pc.toNat ≤ 32775 → 32775 < s.pc.toNat + operandCount (s.M s.pc.toNat) →
      ∃ t, step s = .next t ∧ faultedWith s t .fetchOutOfRange 32776)

/-- STEP outside READY (40_engine_cycle R120): only the answer is given, and nothing else of the state differs. -/
def Obligations.StepOutsideReadyOnlyAnswers : Prop :=
  ∀ s : State,
    (s.status = .awaitInput → ∃ t, step s = .next t ∧ t.response = .rejected .awaitingInput ∧
      { t with response := s.response } = s) ∧
    (s.status = .halted → ∃ t, step s = .next t ∧ t.response = .halt ∧ { t with response := s.response } = s) ∧
    (s.status = .faulted → ∃ t, step s = .next t ∧ t.response = .fault s.faultCause s.faultInfo ∧
      { t with response := s.response } = s)

/-- What each outcome leaves (40_engine_cycle R129): the status, and which of the other status fields change. -/
def Obligations.OutcomeFixesTheStatusFields : Prop :=
  ∀ s t : State, s.status = .ready → step s = .next t →
    (t.response = .cont ∧ t.status = .ready ∧ sameRecords s t) ∨
    (∃ c, t.response = .output c ∧ t.status = .ready ∧ sameRecords s t) ∨
    (∃ a, t.response = .awaitInput a ∧ t.status = .awaitInput ∧ t.pendingAddr = a ∧ a.toNat ≤ 32775 ∧
      t.faultCause = s.faultCause ∧ t.faultInfo = s.faultInfo) ∨
    (t.response = .halt ∧ t.status = .halted ∧ sameRecords s t) ∨
    (∃ c i, c ≠ .none ∧ t.response = .fault c i ∧ t.status = .faulted ∧ t.faultCause = c ∧ t.faultInfo = i ∧
      t.pendingAddr = s.pendingAddr)

/-- Fault entry (60_exceptions R283): a step that ends FAULTED has recorded a cause and its word, answers that
fault, and has changed nothing else: no cell, no stack entry, not the pc. -/
def Obligations.FaultingStepChangesNothingElse : Prop :=
  ∀ s t : State, s.status = .ready → step s = .next t → t.status = .faulted →
    ∃ cause info, cause ≠ .none ∧ faultedWith s t cause info

/-- A step changes at most one cell, the one `storedAt` computes for the instruction fetched, and moves at most one
stack entry; only POP does both, popping one; a step that fetches no instruction does neither (40_engine_cycle R132,
which the spec marks as derived). -/
def Obligations.StepChangesAtMostOneCellAndOneEntry : Prop :=
  ∀ s t : State, step s = .next t →
    (∀ i, s.status = .ready → fetchInstr s = .ok i →
      (∀ k, storedAt i s ≠ some k → t.M k = s.M k) ∧ (movesStack i = false → t.stack = s.stack) ∧
        (t.stack ≠ s.stack → ¬ sameCells s t → (∃ a, i = .pop a) ∧ s.M s.pc.toNat = 3 ∧
          ∃ v, s.stack = v :: t.stack)) ∧
    ((s.status ≠ .ready ∨ ∀ i, fetchInstr s ≠ .ok i) → sameCells s t ∧ t.stack = s.stack) ∧
    (t.stack = s.stack ∨ (∃ v, t.stack = v :: s.stack) ∨ ∃ v, s.stack = v :: t.stack)

/-- A program cannot observe the status block's records, the last answer or the word count (10_state R45), and a
step depends on nothing but M, S, pc, status and the parameters (40_engine_cycle R133); the spec marks both as
derived. -/
def Obligations.HiddenStateDoesNotInfluenceAStep : Prop :=
  ∀ s₁ s₂ t₁ : State, s₁.status = .ready → s₂.status = .ready → sameProgramView s₁ s₂ → step s₁ = .next t₁ →
    ∃ t₂, step s₂ = .next t₂ ∧ sameProgramView t₁ t₂ ∧ t₁.status = t₂.status ∧ t₁.response = t₂.response

/-! ### Invariants of the machine -/

/-- A STEP that gives a next state keeps the invariant `Sound`. -/
def Obligations.StepKeepsTheInvariant : Prop := ∀ s t : State, Sound s → step s = .next t → Sound t

/-- Every request a host can make keeps the invariant `Sound`, debug writes included. -/
def Obligations.EveryRequestKeepsTheInvariant : Prop :=
  ∀ (r : Request) (s : State) (q : Reply) (t : State), Sound s → serve r s = .reply q t → Sound t

/-- Every run satisfies it: after LOAD of any image under any parameters, whatever requests the host then makes
(49_host_interface R259, R263). -/
def Obligations.EveryRunFromLoadSatisfiesTheInvariant : Prop :=
  ∀ (p : Params) (bytes : List Byte) (rs : List Request) (t : State),
    serveAll rs (load p bytes) = some t → Sound t

/-- After HALT or FAULT, no number of STEPs changes anything (40_engine_cycle R120, 60_exceptions R285). -/
def Obligations.EndedRunStaysAsItIs : Prop :=
  ∀ (n : Nat) (s : State), Sound s → Ended s → Host.Core.run Sys2Proof.core n s = .next s

/-- Only LOAD leaves HALTED or FAULTED (70_reset_and_hazards R313, which the spec marks as derived); the recorded
fault stays with the status. -/
def Obligations.OnlyLoadLeavesAnEndedStatus : Prop :=
  ∀ (r : Request) (s : State) (q : Reply) (t : State), Ended s → (∀ bytes, r ≠ .load bytes) →
    serve r s = .reply q t →
    t.status = s.status ∧ t.faultCause = s.faultCause ∧ t.faultInfo = s.faultInfo

/-- No request but LOAD changes the word count (10_state R42), and none at all the parameters (10_state R47; the
field is the model's own, log 4). -/
def Obligations.WordCountAndParametersAreFixed : Prop :=
  ∀ (r : Request) (s : State) (q : Reply) (t : State), serve r s = .reply q t →
    t.params = s.params ∧ ((∀ bytes, r ≠ .load bytes) → t.wordCount = s.wordCount)

/-! ### Ports -/

/-- INSTRUCTION_LENGTH and DISASSEMBLE change nothing, in any status (48_introspection R236). -/
def Obligations.IntrospectionChangesNothing : Prop :=
  ∀ (addr : Word) (s : State),
    (∃ q, serve (.instructionLength addr) s = .reply q s) ∧ ∃ q, serve (.disassemble addr) s = .reply q s

/-- The read accessors return the current state and change nothing (49_host_interface R261), READ_STATUS in the
codes of 10_state R44 and 60_exceptions R281. -/
def Obligations.ReadAccessorsReturnTheState : Prop :=
  ∀ s : State,
    serve .readRegs s = .reply (.words [s.reg 0, s.reg 1, s.reg 2, s.reg 3, s.reg 4, s.reg 5, s.reg 6, s.reg 7]) s ∧
    serve .readPc s = .reply (.word s.pc) s ∧
    (∃ ws, serve .readMem s = .reply (.words ws) s ∧ ws.length = 32768 ∧ ∀ i, i < 32768 → ws.getD i 0 = s.M i) ∧
    serve .readStack s = .reply (.words s.stack.reverse) s ∧
    serve .readWordCount s = .reply (.word s.wordCount) s ∧
    serve .readStatus s =
      .reply (.status (statusCode s.status) s.pendingAddr (causeCode s.faultCause) s.faultInfo) s ∧
    [Status.ready, .awaitInput, .halted, .faulted].map statusCode = [0, 1, 2, 3] ∧
    [FaultCause.none, .stackUnderflow, .invalidCharacter, .invalidOperand, .addressOutOfRange, .fetchOutOfRange,
      .divideByZero, .stackOverflow].map causeCode = [0, 1, 2, 3, 4, 5, 6, 7]

/-- SUPPLY_INPUT (49_host_interface R257): rejected unless input is awaited and the index is a cell's; otherwise a
raw write at the index passed, after which the engine is READY. -/
def Obligations.SupplyInputWritesTheIndexItIsGiven : Prop :=
  ∀ (addr v : Word) (s : State),
    (s.status ≠ .awaitInput → serve (.supplyInput addr v) s = .reply (.rejected .notAwaitingInput) s) ∧
    (s.status = .awaitInput → 32775 < addr.toNat →
      serve (.supplyInput addr v) s = .reply (.rejected .addressOutOfRange) s) ∧
    (s.status = .awaitInput → addr.toNat ≤ 32775 → ∃ t, serve (.supplyInput addr v) s = .reply .ok t ∧
      t.M addr.toNat = v ∧ sameCellsBut addr.toNat s t ∧ t.status = .ready ∧ t.stack = s.stack ∧ t.pc = s.pc ∧
      sameRecords s t ∧ sameFixed s t)

/-- The debug write ports (49_host_interface R262): with DEBUG_WRITE present each writes its one place and no status
field, or rejects an index out of range. With DEBUG_WRITE absent the ports do not exist; the model's answer `noPort`
for that case is its own choice (log 11), and nothing changes. -/
def Obligations.DebugWritesTouchOnePlace : Prop :=
  ∀ (i : Nat) (v : Word) (s : State),
    (s.params.debugWrite = true →
      (∀ r : Fin 8, ∃ t, serve (.writeReg r.val v) s = .reply .ok t ∧ t.reg r = v ∧
        sameCellsBut (32768 + r.val) s t ∧ { t with mem := s.mem } = s) ∧
      (8 ≤ i → serve (.writeReg i v) s = .reply .badIndex s) ∧
      (i < 32768 → ∃ t, serve (.writeMem i v) s = .reply .ok t ∧ t.M i = v ∧ sameCellsBut i s t ∧
        { t with mem := s.mem } = s) ∧
      (32768 ≤ i → serve (.writeMem i v) s = .reply .badIndex s) ∧
      (i < s.stack.length → ∃ t, serve (.writeStack i v) s = .reply .ok t ∧
        t.stack.reverse = s.stack.reverse.set i v ∧ { t with stack := s.stack } = s) ∧
      (s.stack.length ≤ i → serve (.writeStack i v) s = .reply .badIndex s) ∧
      ∃ t, serve (.writePc v) s = .reply .ok t ∧ t.pc = v ∧ { t with pc := s.pc } = s) ∧
    (s.params.debugWrite = false →
      serve (.writeReg i v) s = .reply .noPort s ∧ serve (.writeMem i v) s = .reply .noPort s ∧
      serve (.writeStack i v) s = .reply .noPort s ∧ serve (.writePc v) s = .reply .noPort s)

/-! ### Introspection -/

/-- INSTRUCTION_LENGTH reads only the opcode word and answers 1 to 4 (48_introspection R230). -/
def Obligations.LengthQueryReadsOnlyTheOpcodeWord : Prop :=
  ∀ (addr : Word) (s : State),
    (32775 < addr.toNat → serve (.instructionLength addr) s = .reply .outOfRange s) ∧
    (addr.toNat ≤ 32775 → operandCount (s.M addr.toNat) ≤ 3 ∧
      serve (.instructionLength addr) s = .reply (.length (1 + operandCount (s.M addr.toNat))) s)

/-- An operand word as text (48_introspection R232): `r0` to `r7`, or the decimal numeral without leading zeros. -/
def Obligations.OperandsRenderAsRegistersOrNumerals : Prop :=
  ∀ w : Word,
    (32768 ≤ w.toNat → w.toNat ≤ 32775 → render w = ['r', Nat.digitChar (w.toNat - 32768)]) ∧
    (w.toNat < 32768 ∨ 32775 < w.toNat →
      (∀ c ∈ render w, c.isDigit = true) ∧
      (render w).foldl (fun n c => 10 * n + (c.toNat - 48)) 0 = w.toNat ∧
      (w ≠ 0 → (render w).head? ≠ some '0') ∧ (w = 0 → render w = ['0']))

/-- DISASSEMBLE (48_introspection R233, R234): the placeholder for an unknown opcode; for a known one OUT_OF_RANGE
when an operand word lies past the array, else its mnemonic and each operand word in order after one space. The
mnemonics are those of 30_encoding R97, in the order of their codes. -/
def Obligations.DisassemblyIsMnemonicAndOperands : Prop :=
  (List.range 22).map (fun k => mnemonicOf (BitVec.ofNat 16 k)) =
    ["HALT", "SET", "PUSH", "POP", "EQ", "GT", "JMP", "JT", "JF", "ADD", "MUL", "MOD", "AND", "OR", "NOT", "RMEM",
      "WMEM", "CALL", "RET", "OUT", "IN", "NOP"].map (fun m => some m.toList) ∧
  ∀ (addr : Word) (s : State),
    (32775 < addr.toNat → serve (.disassemble addr) s = .reply .outOfRange s) ∧
    (addr.toNat ≤ 32775 → 21 < (s.M addr.toNat).toNat →
      serve (.disassemble addr) s = .reply (.text s.params.unknownMnemonic) s) ∧
    (addr.toNat ≤ 32775 → (s.M addr.toNat).toNat ≤ 21 →
      ∃ name, mnemonicOf (s.M addr.toNat) = some name ∧
        serve (.disassemble addr) s =
          (if 32775 < addr.toNat + operandCount (s.M addr.toNat) then .reply .outOfRange s
           else .reply (.text (name ++ (List.range (operandCount (s.M addr.toNat))).flatMap
              (fun k => ' ' :: render (s.M (addr.toNat + 1 + k))))) s))

/-- The number of space-separated items after the mnemonic is the length less one, wherever both queries answer
(48_introspection R235, which the spec marks as derived); the placeholder is an allowed one, so it holds no space
(R234). -/
def Obligations.DisassembledOperandCountMatchesLength : Prop :=
  ∀ (s : State) (addr : Word) (n : Nat) (text : Text), paramsAllowed s.params →
    instructionLength s addr = some n → disassemble s addr = some text → text.count ' ' + 1 = n

/-- The length decoder and the engine agree (48_introspection R231, which the spec marks as derived): what STEP
fetches at the pc is an instruction of exactly the length the query gives there. -/
def Obligations.StepFetchesExactlyTheQueriedLength : Prop :=
  ∀ (s : State) (i : Instr), fetchInstr s = .ok i →
    instructionLength s s.pc = some (encode i).length ∧ wordsAt s s.pc.toNat (encode i)

/-! ### Control instructions -/

/-- HALT (41_control R150). -/
def Obligations.HaltStopsTheEngine : Prop := encode .halt = [0] ∧ ∀ s : State, halts .halt s

/-- Unknown opcodes (41_control R157): every opcode word 22 to 65535 is one word long and behaves as HALT. -/
def Obligations.UnknownOpcodesHalt : Prop :=
  ∀ op : Word, 22 ≤ op.toNat →
    (∀ rest, decode (op :: rest) = .ok (.unknown op, rest)) ∧ ∀ s : State, halts (.unknown op) s

/-- NOP (41_control R156): only the pc advances, by one. -/
def Obligations.NopOnlyAdvancesThePc : Prop :=
  encode .nop = [21] ∧ ∀ s : State, completesAt .nop s (s.pc + 1) s.stack

/-- JMP (41_control R151): to the value of its operand, checked only at the next fetch. -/
def Obligations.JmpSetsThePcToItsValue : Prop :=
  ∀ (a : Src) (s : State), encode (.jmp a) = [6, srcToWord a] ∧
    (∀ w, a = .bad w → takesFault (.jmp a) s .invalidOperand w) ∧
    ∀ v, srcValue a s = .ok v → transfersTo (.jmp a) s v s.stack

/-- JT (41_control R152): to the raw word when the condition's value is not 0, else past its three words. -/
def Obligations.JtJumpsToTheRawWordIfNonzero : Prop :=
  ∀ (a : Src) (b : Word) (s : State), encode (.jt a b) = [7, srcToWord a, b] ∧
    (∀ w, a = .bad w → takesFault (.jt a b) s .invalidOperand w) ∧
    (∀ v, srcValue a s = .ok v → v ≠ 0 → transfersTo (.jt a b) s b s.stack) ∧
    (srcValue a s = .ok 0 → completesAt (.jt a b) s (s.pc + 3) s.stack)

/-- JF (41_control R153): to the raw word when the condition's value is 0, else past its three words. -/
def Obligations.JfJumpsToTheRawWordIfZero : Prop :=
  ∀ (a : Src) (b : Word) (s : State), encode (.jf a b) = [8, srcToWord a, b] ∧
    (∀ w, a = .bad w → takesFault (.jf a b) s .invalidOperand w) ∧
    (srcValue a s = .ok 0 → transfersTo (.jf a b) s b s.stack) ∧
    (∀ v, srcValue a s = .ok v → v ≠ 0 → completesAt (.jf a b) s (s.pc + 3) s.stack)

/-- CALL (41_control R154): pushes the index after its two words and jumps, or faults STACK_OVERFLOW on a full
finite stack, after its operand has been resolved. -/
def Obligations.CallPushesTheReturnIndexAndJumps : Prop :=
  ∀ (a : Src) (s : State), encode (.call a) = [17, srcToWord a] ∧
    (∀ w, a = .bad w → takesFault (.call a) s .invalidOperand w) ∧
    ∀ v, srcValue a s = .ok v →
      (s.params.stackCapacity = some s.stack.length → takesFault (.call a) s .stackOverflow (s.pc + 2)) ∧
      (s.params.stackCapacity ≠ some s.stack.length → transfersTo (.call a) s v ((s.pc + 2) :: s.stack))

/-- RET (41_control R155): pops the pc, or faults STACK_UNDERFLOW(18) on an empty stack. -/
def Obligations.RetPopsThePc : Prop :=
  encode .ret = [18] ∧ ∀ s : State,
    (s.stack = [] → takesFault .ret s .stackUnderflow 18) ∧
    ∀ v rest, s.stack = v :: rest → transfersTo .ret s v rest

/-! ### Data movement and stack instructions -/

/-- SET (42_data_stack R170), its faults in their order. -/
def Obligations.SetStoresItsValue : Prop :=
  ∀ (a : Dst) (b : Src) (s : State), encode (.set a b) = [1, dstToWord a, srcToWord b] ∧
    (∀ w, a = .bad w → takesFault (.set a b) s .addressOutOfRange w) ∧
    (∀ d w, dstIndex a = .ok d → b = .bad w → takesFault (.set a b) s .invalidOperand w) ∧
    ∀ d v, dstIndex a = .ok d → srcValue b s = .ok v → completesStoring (.set a b) s 3 d v s.stack

/-- PUSH (42_data_stack R171): the resolved value becomes the top, or STACK_OVERFLOW on a full finite stack. -/
def Obligations.PushPutsItsValueOnTop : Prop :=
  ∀ (a : Src) (s : State), encode (.push a) = [2, srcToWord a] ∧
    (∀ w, a = .bad w → takesFault (.push a) s .invalidOperand w) ∧
    ∀ v, srcValue a s = .ok v →
      (s.params.stackCapacity = some s.stack.length → takesFault (.push a) s .stackOverflow v) ∧
      (s.params.stackCapacity ≠ some s.stack.length → completesAt (.push a) s (s.pc + 2) (v :: s.stack))

/-- POP (42_data_stack R172): the top goes to the destination; the destination is checked before the stack. -/
def Obligations.PopStoresTheTop : Prop :=
  ∀ (a : Dst) (s : State), encode (.pop a) = [3, dstToWord a] ∧
    (∀ w, a = .bad w → takesFault (.pop a) s .addressOutOfRange w) ∧
    (∀ d, dstIndex a = .ok d → s.stack = [] → takesFault (.pop a) s .stackUnderflow 3) ∧
    ∀ d v rest, dstIndex a = .ok d → s.stack = v :: rest → completesStoring (.pop a) s 2 d v rest

/-- RMEM (42_data_stack R173): the cell its value names, a register's cell included, copied unchanged. -/
def Obligations.RmemCopiesTheCellItsValueNames : Prop :=
  ∀ (a : Dst) (b : Src) (s : State), encode (.rmem a b) = [15, dstToWord a, srcToWord b] ∧
    (∀ w, a = .bad w → takesFault (.rmem a b) s .addressOutOfRange w) ∧
    (∀ d w, dstIndex a = .ok d → b = .bad w → takesFault (.rmem a b) s .invalidOperand w) ∧
    (∀ d v, dstIndex a = .ok d → srcValue b s = .ok v → 32775 < v.toNat →
      takesFault (.rmem a b) s .addressOutOfRange v) ∧
    ∀ d v, dstIndex a = .ok d → srcValue b s = .ok v → v.toNat ≤ 32775 →
      completesStoring (.rmem a b) s 3 d (s.M v.toNat) s.stack

/-- WMEM (42_data_stack R174): the cell its first value names gets the second value. -/
def Obligations.WmemStoresAtTheCellItsValueNames : Prop :=
  ∀ (a b : Src) (s : State), encode (.wmem a b) = [16, srcToWord a, srcToWord b] ∧
    (∀ w, a = .bad w → takesFault (.wmem a b) s .invalidOperand w) ∧
    (∀ d w, srcValue a s = .ok d → b = .bad w → takesFault (.wmem a b) s .invalidOperand w) ∧
    (∀ d v, srcValue a s = .ok d → srcValue b s = .ok v → 32775 < d.toNat →
      takesFault (.wmem a b) s .addressOutOfRange d) ∧
    ∀ d v, srcValue a s = .ok d → srcValue b s = .ok v → d.toNat ≤ 32775 →
      completesStoring (.wmem a b) s 3 d.toNat v s.stack

/-! ### ALU instructions -/

/-- EQ (43_alu R192). -/
def Obligations.EqStoresWhetherEqual : Prop :=
  storesResult .eq 4 (fun _ _ => True) (fun x y => if x = y then 1 else 0)

/-- GT (43_alu R193): strict and unsigned over all 16 bits. -/
def Obligations.GtStoresWhetherGreater : Prop :=
  storesResult .gt 5 (fun _ _ => True) (fun x y => if y < x then 1 else 0)

/-- ADD (43_alu R194). -/
def Obligations.AddStoresTheSumModulo32768 : Prop :=
  storesResult .add 9 (fun _ _ => True) (fun x y => (x + y) % 32768)

/-- MUL (43_alu R195). -/
def Obligations.MulStoresTheProductModulo32768 : Prop :=
  storesResult .mul 10 (fun _ _ => True) (fun x y => (x * y) % 32768)

/-- MOD (43_alu R196): the remainder for a divisor that is not 0; DIVIDE_BY_ZERO with the dividend for 0. -/
def Obligations.ModStoresTheRemainder : Prop :=
  storesResult .mod 11 (fun _ y => y ≠ 0) (fun x y => x % y) ∧
  ∀ (a : Dst) (b c : Src) (s : State) (d : Nat) (x : Word), dstIndex a = .ok d → srcValue b s = .ok x →
    srcValue c s = .ok 0 → takesFault (.mod a b c) s .divideByZero x

/-- AND (43_alu R197): all 16 bits. -/
def Obligations.AndStoresTheBitwiseAnd : Prop :=
  storesResult .and 12 (fun _ _ => True) (fun x y => x &&& y)

/-- OR (43_alu R198): all 16 bits. -/
def Obligations.OrStoresTheBitwiseOr : Prop :=
  storesResult .or 13 (fun _ _ => True) (fun x y => x ||| y)

/-- NOT (43_alu R199): the 15-bit complement of 0 to 32767; above that what NOT_HIGH says, MASK15 by default,
REFUSE being the one place where the model gives a step no meaning. -/
def Obligations.NotStoresTheFifteenBitComplement : Prop :=
  Params.standard.notHigh = .mask15 ∧ ∀ (a : Dst) (b : Src) (s : State),
    encode (.not a b) = [14, dstToWord a, srcToWord b] ∧
    (∀ w, a = .bad w → takesFault (.not a b) s .addressOutOfRange w) ∧
    (∀ d w, dstIndex a = .ok d → b = .bad w → takesFault (.not a b) s .invalidOperand w) ∧
    ∀ d x, dstIndex a = .ok d → srcValue b s = .ok x →
      (x.toNat ≤ 32767 → completesStoring (.not a b) s 3 d (BitVec.ofNat 16 (32767 - x.toNat)) s.stack) ∧
      (32768 ≤ x.toNat → s.params.notHigh = .mask15 →
        completesStoring (.not a b) s 3 d (BitVec.ofNat 16 (65535 - x.toNat)) s.stack) ∧
      (32768 ≤ x.toNat → s.params.notHigh = .wrap16 →
        completesStoring (.not a b) s 3 d (BitVec.ofNat 16 (98303 - x.toNat)) s.stack) ∧
      (32768 ≤ x.toNat → s.params.notHigh = .refuse → exec (.not a b) s = .refused (.notHighRefused x))

/-- The faults of the ALU instructions, their order, and that there are no others (43_alu R191). -/
def Obligations.AluFaultsComeInOperandOrder : Prop :=
  (∀ mk ∈ [Instr.eq, Instr.gt, Instr.add, Instr.mul, Instr.mod, Instr.and, Instr.or],
    ∀ (a : Dst) (b c : Src) (s : State),
      (∀ w, a = .bad w → takesFault (mk a b c) s .addressOutOfRange w) ∧
      (∀ d w, dstIndex a = .ok d → b = .bad w → takesFault (mk a b c) s .invalidOperand w) ∧
      (∀ d x w, dstIndex a = .ok d → srcValue b s = .ok x → c = .bad w →
        takesFault (mk a b c) s .invalidOperand w) ∧
      (∀ d x, dstIndex a = .ok d → srcValue b s = .ok x → srcValue c s = .ok 0 →
        takesFault (.mod a b c) s .divideByZero x) ∧
      ∀ t, exec (mk a b c) s = .next t → t.status = .faulted →
        (∃ w, a = .bad w ∨ b = .bad w ∨ c = .bad w) ∨ (mk a b c = .mod a b c ∧ srcValue c s = .ok 0)) ∧
  ∀ (a : Dst) (b : Src) (s : State),
    (∀ w, a = .bad w → takesFault (.not a b) s .addressOutOfRange w) ∧
    (∀ d w, dstIndex a = .ok d → b = .bad w → takesFault (.not a b) s .invalidOperand w) ∧
    ∀ t, exec (.not a b) s = .next t → t.status = .faulted → ∃ w, a = .bad w ∨ b = .bad w

/-- 16-bit wrap-around followed by a 15-bit mask gives the sum and the product (43_alu R200, which the spec
marks as derived). -/
def Obligations.WrappingThenMaskingIsExact : Prop :=
  ∀ x y : Word, aluAdd x y = (x + y) &&& 0x7FFF ∧ aluMul x y = (x * y) &&& 0x7FFF

/-- Over the number domain, operands 0 to 32767, every ALU result is in it too and NOT_HIGH is never consulted
(43_alu R202, which the spec marks as derived): what an ALU instruction stores is below 32768, and is the same
under every setting. -/
def Obligations.NumbersGiveNumbersUnderEveryNotHigh : Prop :=
  ∀ (i : Instr) (a : Dst) (b c : Src) (s t : State) (d : Nat) (x y : Word) (h : NotHigh),
    i ∈ [Instr.eq a b c, .gt a b c, .add a b c, .mul a b c, .mod a b c, .and a b c, .or a b c, .not a b] →
    dstIndex a = .ok d → srcValue b s = .ok x → srcValue c s = .ok y → x.toNat ≤ 32767 → y.toNat ≤ 32767 →
    exec i s = .next t → t.status = .ready →
    (t.M d).toNat ≤ 32767 ∧
      ∃ u, exec i { s with params := { s.params with notHigh := h } } = .next u ∧ u.mem = t.mem ∧ u.pc = t.pc

/-! ### Character I/O -/

/-- OUT (44_io R220): OUTPUT of the resolved code, the engine staying READY, or INVALID_CHARACTER; and which codes
the default CHAR_VALID accepts. -/
def Obligations.OutAnswersItsCharacter : Prop :=
  (∀ (a : Src) (s : State), encode (.out a) = [19, srcToWord a] ∧
    (∀ w, a = .bad w → takesFault (.out a) s .invalidOperand w) ∧
    ∀ c, srcValue a s = .ok c →
      (charValid s.params c = false → takesFault (.out a) s .invalidCharacter c) ∧
      (charValid s.params c = true → ∃ t, exec (.out a) s = .next t ∧ t.status = .ready ∧
        t.response = .output c ∧ sameRecords s t ∧ sameFixed s t ∧ sameCells s t ∧ t.stack = s.stack ∧
        t.pc = s.pc + 2)) ∧
  ∀ c : Word, charValid Params.standard c = true ↔ ¬ (0xD800 ≤ c.toNat ∧ c.toNat ≤ 0xDFFF)

/-- IN (44_io R221): AWAIT_INPUT of its destination's index, no cell written; a STEP before SUPPLY_INPUT is
rejected, and SUPPLY_INPUT there stores the word and leaves the engine READY. -/
def Obligations.InAwaitsAWordForItsDestination : Prop :=
  ∀ (a : Dst) (s : State), encode (.inp a) = [20, dstToWord a] ∧
    (∀ w, a = .bad w → takesFault (.inp a) s .addressOutOfRange w) ∧
    ∀ d, dstIndex a = .ok d → ∃ t, exec (.inp a) s = .next t ∧ t.status = .awaitInput ∧
      t.response = .awaitInput t.pendingAddr ∧ t.pendingAddr.toNat = d ∧ t.faultCause = s.faultCause ∧
      t.faultInfo = s.faultInfo ∧ sameFixed s t ∧ sameCells s t ∧ t.stack = s.stack ∧ t.pc = s.pc + 2 ∧
      step t = .next (t.respond (.rejected .awaitingInput)) ∧
      ∀ v, ∃ u, serve (.supplyInput t.pendingAddr v) t = .reply .ok u ∧ u.M d = v ∧ sameCellsBut d s u ∧
        u.status = .ready ∧ u.pc = s.pc + 2

/-! ### Frames -/

/-- The frame in memory, registers included, of every instruction: whatever it does, each cell but the one it
stores to (`storedAt`, computed as its meaning computes it) holds what it held (10_state R33, R41; 20_memory R62). -/
def Obligations.InstructionsLeaveOtherCellsAlone : Prop :=
  ∀ (i : Instr) (s t : State), exec i s = .next t → ∀ k, storedAt i s ≠ some k → t.M k = s.M k

/-- The frame outside memory of every instruction: the stack changes only by PUSH, POP, CALL and RET (10_state
R35), pending_addr only by IN, cause and info only by a fault (40_engine_cycle R129), the word count and the
parameters never. -/
def Obligations.InstructionsLeaveOtherStateAlone : Prop :=
  ∀ (i : Instr) (s t : State), exec i s = .next t →
    (movesStack i = false → t.stack = s.stack) ∧ sameFixed s t ∧
    (t.status ≠ .awaitInput → t.pendingAddr = s.pendingAddr) ∧
    (t.status ≠ .faulted → t.faultCause = s.faultCause ∧ t.faultInfo = s.faultInfo)
end

