-- ==== Sys2Proof/Laws/Memory.lean ====
section
/-! SUPPORT. The laws of the memory array: a read after a write, that every memory operation keeps the canonical
form, and that canonical memories with the same cells are the same data. -/

namespace Sys2Proof.Machine

@[simp] theorem Memory.read_nil (a : Nat) : Memory.read [] a = 0 := rfl

theorem Memory.read_cons (k : Nat) (v : Word) (m : Memory) (a : Nat) :
    Memory.read ((k, v) :: m) a = if k = a then v else Memory.read m a := rfl

theorem Memory.erase_cons (k : Nat) (v : Word) (m : Memory) (a : Nat) :
    Memory.erase ((k, v) :: m) a = if k = a then Memory.erase m a else (k, v) :: Memory.erase m a := by
  by_cases h : k = a <;> simp [Memory.erase, h]

theorem Memory.read_erase_self (m : Memory) (a : Nat) : (m.erase a).read a = 0 := by
  induction m with
  | nil => rfl
  | cons e m ih =>
    obtain ⟨k, v⟩ := e
    rw [Memory.erase_cons]
    split
    · exact ih
    · rename_i h
      rw [Memory.read_cons, if_neg h, ih]

theorem Memory.read_erase_ne (m : Memory) {a b : Nat} (h : b ≠ a) : (m.erase a).read b = m.read b := by
  induction m with
  | nil => rfl
  | cons e m ih =>
    obtain ⟨k, v⟩ := e
    rw [Memory.erase_cons, Memory.read_cons]
    split
    · rename_i hk
      rw [ih, if_neg (by omega)]
    · rw [Memory.read_cons, ih]

theorem Memory.read_insert_ne (m : Memory) {a b : Nat} (v : Word) (h : b ≠ a) :
    (m.insert a v).read b = m.read b := by
  induction m with
  | nil => simp [Memory.insert, Memory.read, Ne.symm h]
  | cons e m ih =>
    obtain ⟨k, w⟩ := e
    unfold Memory.insert
    split
    · rw [Memory.read_cons, if_neg (Ne.symm h)]
    · rw [Memory.read_cons, Memory.read_cons, ih]

theorem Memory.read_insert_erase_self (m : Memory) (a : Nat) (v : Word) :
    ((m.erase a).insert a v).read a = v := by
  induction m with
  | nil => simp [Memory.erase, Memory.insert, Memory.read]
  | cons e m ih =>
    obtain ⟨k, w⟩ := e
    rw [Memory.erase_cons]
    split
    · exact ih
    · rename_i hk
      unfold Memory.insert
      split
      · simp [Memory.read]
      · rw [Memory.read_cons, if_neg hk, ih]

/-- A read after a write to the same cell gives the word written. -/
@[simp] theorem Memory.read_write_self (m : Memory) (a : Nat) (v : Word) : (m.write a v).read a = v := by
  unfold Memory.write
  split
  · rename_i h
    rw [Memory.read_erase_self, h]
  · exact Memory.read_insert_erase_self m a v

/-- A write leaves every other cell alone. -/
theorem Memory.read_write_ne (m : Memory) {a b : Nat} (v : Word) (h : b ≠ a) :
    (m.write a v).read b = m.read b := by
  unfold Memory.write
  split
  · exact Memory.read_erase_ne m h
  · rw [Memory.read_insert_ne _ v h, Memory.read_erase_ne m h]

/-- What one cell holds after a write to one cell. -/
theorem Memory.read_write (m : Memory) (a b : Nat) (v : Word) :
    (m.write a v).read b = if b = a then v else m.read b := by
  by_cases h : b = a
  · simp [h]
  · simp [h, Memory.read_write_ne m v h]

theorem Memory.wfFrom_cons (lo k : Nat) (v : Word) (m : Memory) :
    Memory.wfFrom lo ((k, v) :: m) = true ↔
      lo ≤ k ∧ k < 32776 ∧ v ≠ 0 ∧ Memory.wfFrom (k + 1) m = true := by
  simp [Memory.wfFrom, and_assoc]

theorem Memory.wfFrom_mono {lo lo' : Nat} (h : lo ≤ lo') {m : Memory} (hm : Memory.wfFrom lo' m = true) :
    Memory.wfFrom lo m = true := by
  cases m with
  | nil => rfl
  | cons e m =>
    obtain ⟨k, v⟩ := e
    rw [Memory.wfFrom_cons] at hm ⊢
    exact ⟨le_trans h hm.1, hm.2⟩

theorem Memory.wfFrom_erase {lo : Nat} {m : Memory} (hm : Memory.wfFrom lo m = true) (a : Nat) :
    Memory.wfFrom lo (m.erase a) = true := by
  induction m generalizing lo with
  | nil => rfl
  | cons e m ih =>
    obtain ⟨k, v⟩ := e
    rw [Memory.wfFrom_cons] at hm
    rw [Memory.erase_cons]
    split
    · exact Memory.wfFrom_mono (by omega) (ih hm.2.2.2)
    · exact (Memory.wfFrom_cons ..).2 ⟨hm.1, hm.2.1, hm.2.2.1, ih hm.2.2.2⟩

theorem Memory.wfFrom_insert_erase {lo : Nat} {m : Memory} (hm : Memory.wfFrom lo m = true) {a : Nat} {v : Word}
    (hlo : lo ≤ a) (ha : a < 32776) (hv : v ≠ 0) : Memory.wfFrom lo ((m.erase a).insert a v) = true := by
  induction m generalizing lo with
  | nil => exact (Memory.wfFrom_cons ..).2 ⟨hlo, ha, hv, rfl⟩
  | cons e m ih =>
    obtain ⟨k, w⟩ := e
    rw [Memory.wfFrom_cons] at hm
    rw [Memory.erase_cons]
    split
    · rename_i hk
      exact ih (Memory.wfFrom_mono (by omega) hm.2.2.2) hlo
    · rename_i hk
      unfold Memory.insert
      split
      · rename_i hak
        exact (Memory.wfFrom_cons ..).2 ⟨hlo, ha, hv,
          (Memory.wfFrom_cons ..).2 ⟨by omega, hm.2.1, hm.2.2.1, Memory.wfFrom_erase hm.2.2.2 a⟩⟩
      · exact (Memory.wfFrom_cons ..).2 ⟨hm.1, hm.2.1, hm.2.2.1, ih hm.2.2.2 (by omega)⟩

/-- A write to a cell of the array keeps the canonical form. -/
theorem Memory.wf_write {m : Memory} (hm : m.wf = true) {a : Nat} (ha : a < 32776) (v : Word) :
    (m.write a v).wf = true := by
  unfold Memory.write
  split
  · exact Memory.wfFrom_erase hm a
  · rename_i hv
    exact Memory.wfFrom_insert_erase hm (Nat.zero_le a) ha hv

theorem Memory.wfFrom_ofWords (a : Nat) (ws : List Word) (h : a + ws.length ≤ 32776) :
    Memory.wfFrom a (Memory.ofWords a ws) = true := by
  induction ws generalizing a with
  | nil => rfl
  | cons w ws ih =>
    simp only [List.length_cons] at h
    have tail := ih (a + 1) (by omega)
    unfold Memory.ofWords
    split
    · exact Memory.wfFrom_mono (Nat.le_succ a) tail
    · rename_i hw
      exact (Memory.wfFrom_cons ..).2 ⟨le_refl a, by omega, hw, tail⟩

theorem Memory.read_ofWords_below (a : Nat) (ws : List Word) {i : Nat} (h : i < a) :
    (Memory.ofWords a ws).read i = 0 := by
  induction ws generalizing a with
  | nil => rfl
  | cons w ws ih =>
    unfold Memory.ofWords
    split
    · exact ih (a + 1) (by omega)
    · rw [Memory.read_cons, if_neg (by omega)]
      exact ih (a + 1) (by omega)

/-- The memory built from a list holds the list's words in order and 0 after them. -/
theorem Memory.read_ofWords (a : Nat) (ws : List Word) (i : Nat) :
    (Memory.ofWords a ws).read (a + i) = ws.getD i 0 := by
  induction ws generalizing a i with
  | nil => simp [Memory.ofWords]
  | cons w ws ih =>
    unfold Memory.ofWords
    cases i with
    | zero =>
      split
      · rename_i hw
        simpa [hw] using Memory.read_ofWords_below (a + 1) ws (Nat.lt_succ_self a)
      · simp [Memory.read]
    | succ i =>
      have next := ih (a + 1) i
      rw [show a + 1 + i = a + (i + 1) by omega] at next
      split
      · simpa using next
      · rw [Memory.read_cons, if_neg (by omega), next]
        simp

theorem Memory.read_below {lo : Nat} {m : Memory} (hm : Memory.wfFrom lo m = true) {a : Nat} (h : a < lo) :
    m.read a = 0 := by
  induction m generalizing lo with
  | nil => rfl
  | cons e m ih =>
    obtain ⟨k, v⟩ := e
    rw [Memory.wfFrom_cons] at hm
    rw [Memory.read_cons, if_neg (by omega)]
    exact ih hm.2.2.2 (by omega)

theorem Memory.eq_of_read_from {lo : Nat} {m m' : Memory} (hm : Memory.wfFrom lo m = true)
    (hm' : Memory.wfFrom lo m' = true) (h : ∀ a, m.read a = m'.read a) : m = m' := by
  induction m generalizing lo m' with
  | nil =>
    cases m' with
    | nil => rfl
    | cons e t =>
      obtain ⟨k, v⟩ := e
      rw [Memory.wfFrom_cons] at hm'
      have hk := h k
      simp only [Memory.read_nil, Memory.read_cons, if_pos] at hk
      exact absurd hk.symm hm'.2.2.1
  | cons e m ih =>
    obtain ⟨k, v⟩ := e
    rw [Memory.wfFrom_cons] at hm
    cases m' with
    | nil =>
      have hk := h k
      simp only [Memory.read_nil, Memory.read_cons, if_pos] at hk
      exact absurd hk hm.2.2.1
    | cons e' m' =>
      obtain ⟨k', v'⟩ := e'
      rw [Memory.wfFrom_cons] at hm'
      have below : ∀ {n n' : Nat} {w w' : Word} {t t' : Memory}, w ≠ 0 →
          Memory.wfFrom (n' + 1) t' = true → n < n' →
          Memory.read ((n, w) :: t) n ≠ Memory.read ((n', w') :: t') n := by
        intro n n' w w' t t' hw ht hlt
        rw [Memory.read_cons, if_pos rfl, Memory.read_cons, if_neg (by omega),
          Memory.read_below ht (by omega)]
        exact hw
      have hkk : k = k' := by
        rcases Nat.lt_trichotomy k k' with hlt | heq | hgt
        · exact absurd (h k) (below hm.2.2.1 hm'.2.2.2 hlt)
        · exact heq
        · exact absurd (h k').symm (below hm'.2.2.1 hm.2.2.2 hgt)
      subst hkk
      have hv := h k
      simp only [Memory.read_cons, if_pos] at hv
      have tails : ∀ a, Memory.read m a = Memory.read m' a := by
        intro a
        by_cases ha : k = a
        · subst ha
          rw [Memory.read_below hm.2.2.2 (Nat.lt_succ_self k), Memory.read_below hm'.2.2.2 (Nat.lt_succ_self k)]
        · have := h a
          simpa [Memory.read_cons, ha] using this
      rw [hv, ih hm.2.2.2 hm'.2.2.2 tails]

/-- Canonical memories whose cells are equal are the same list. -/
theorem Memory.eq_of_read {m m' : Memory} (hm : m.wf = true) (hm' : m'.wf = true)
    (h : ∀ a, m.read a = m'.read a) : m = m' := Memory.eq_of_read_from hm hm' h

end Sys2Proof.Machine
end

