-- ==== Sys2Proof/Laws/State.lean ====
section
/-! SUPPORT. One lemma per field per update of the state, so that no proof unfolds a record update. -/

namespace Sys2Proof.Machine

@[simp] theorem State.setM_mem (s : State) (a : Nat) (v : Word) : (s.setM a v).mem = s.mem.write a v := rfl
@[simp] theorem State.setM_stack (s : State) (a : Nat) (v : Word) : (s.setM a v).stack = s.stack := rfl
@[simp] theorem State.setM_pc (s : State) (a : Nat) (v : Word) : (s.setM a v).pc = s.pc := rfl
@[simp] theorem State.setM_wordCount (s : State) (a : Nat) (v : Word) : (s.setM a v).wordCount = s.wordCount := rfl
@[simp] theorem State.setM_status (s : State) (a : Nat) (v : Word) : (s.setM a v).status = s.status := rfl
@[simp] theorem State.setM_pendingAddr (s : State) (a : Nat) (v : Word) : (s.setM a v).pendingAddr = s.pendingAddr := rfl
@[simp] theorem State.setM_faultCause (s : State) (a : Nat) (v : Word) : (s.setM a v).faultCause = s.faultCause := rfl
@[simp] theorem State.setM_faultInfo (s : State) (a : Nat) (v : Word) : (s.setM a v).faultInfo = s.faultInfo := rfl
@[simp] theorem State.setM_response (s : State) (a : Nat) (v : Word) : (s.setM a v).response = s.response := rfl
@[simp] theorem State.setM_params (s : State) (a : Nat) (v : Word) : (s.setM a v).params = s.params := rfl

@[simp] theorem State.setPc_mem (s : State) (p : Word) : (s.setPc p).mem = s.mem := rfl
@[simp] theorem State.setPc_stack (s : State) (p : Word) : (s.setPc p).stack = s.stack := rfl
@[simp] theorem State.setPc_pc (s : State) (p : Word) : (s.setPc p).pc = p := rfl
@[simp] theorem State.setPc_wordCount (s : State) (p : Word) : (s.setPc p).wordCount = s.wordCount := rfl
@[simp] theorem State.setPc_status (s : State) (p : Word) : (s.setPc p).status = s.status := rfl
@[simp] theorem State.setPc_pendingAddr (s : State) (p : Word) : (s.setPc p).pendingAddr = s.pendingAddr := rfl
@[simp] theorem State.setPc_faultCause (s : State) (p : Word) : (s.setPc p).faultCause = s.faultCause := rfl
@[simp] theorem State.setPc_faultInfo (s : State) (p : Word) : (s.setPc p).faultInfo = s.faultInfo := rfl
@[simp] theorem State.setPc_response (s : State) (p : Word) : (s.setPc p).response = s.response := rfl
@[simp] theorem State.setPc_params (s : State) (p : Word) : (s.setPc p).params = s.params := rfl

@[simp] theorem State.setStack_mem (s : State) (st : List Word) : (s.setStack st).mem = s.mem := rfl
@[simp] theorem State.setStack_stack (s : State) (st : List Word) : (s.setStack st).stack = st := rfl
@[simp] theorem State.setStack_pc (s : State) (st : List Word) : (s.setStack st).pc = s.pc := rfl
@[simp] theorem State.setStack_wordCount (s : State) (st : List Word) : (s.setStack st).wordCount = s.wordCount := rfl
@[simp] theorem State.setStack_status (s : State) (st : List Word) : (s.setStack st).status = s.status := rfl
@[simp] theorem State.setStack_pendingAddr (s : State) (st : List Word) : (s.setStack st).pendingAddr = s.pendingAddr := rfl
@[simp] theorem State.setStack_faultCause (s : State) (st : List Word) : (s.setStack st).faultCause = s.faultCause := rfl
@[simp] theorem State.setStack_faultInfo (s : State) (st : List Word) : (s.setStack st).faultInfo = s.faultInfo := rfl
@[simp] theorem State.setStack_response (s : State) (st : List Word) : (s.setStack st).response = s.response := rfl
@[simp] theorem State.setStack_params (s : State) (st : List Word) : (s.setStack st).params = s.params := rfl

@[simp] theorem State.answer_mem (s : State) (st : Status) (r : Response) : (s.answer st r).mem = s.mem := rfl
@[simp] theorem State.answer_stack (s : State) (st : Status) (r : Response) : (s.answer st r).stack = s.stack := rfl
@[simp] theorem State.answer_pc (s : State) (st : Status) (r : Response) : (s.answer st r).pc = s.pc := rfl
@[simp] theorem State.answer_wordCount (s : State) (st : Status) (r : Response) : (s.answer st r).wordCount = s.wordCount := rfl
@[simp] theorem State.answer_status (s : State) (st : Status) (r : Response) : (s.answer st r).status = st := rfl
@[simp] theorem State.answer_pendingAddr (s : State) (st : Status) (r : Response) : (s.answer st r).pendingAddr = s.pendingAddr := rfl
@[simp] theorem State.answer_faultCause (s : State) (st : Status) (r : Response) : (s.answer st r).faultCause = s.faultCause := rfl
@[simp] theorem State.answer_faultInfo (s : State) (st : Status) (r : Response) : (s.answer st r).faultInfo = s.faultInfo := rfl
@[simp] theorem State.answer_response (s : State) (st : Status) (r : Response) : (s.answer st r).response = r := rfl
@[simp] theorem State.answer_params (s : State) (st : Status) (r : Response) : (s.answer st r).params = s.params := rfl

@[simp] theorem State.respond_mem (s : State) (r : Response) : (s.respond r).mem = s.mem := rfl
@[simp] theorem State.respond_stack (s : State) (r : Response) : (s.respond r).stack = s.stack := rfl
@[simp] theorem State.respond_pc (s : State) (r : Response) : (s.respond r).pc = s.pc := rfl
@[simp] theorem State.respond_wordCount (s : State) (r : Response) : (s.respond r).wordCount = s.wordCount := rfl
@[simp] theorem State.respond_status (s : State) (r : Response) : (s.respond r).status = s.status := rfl
@[simp] theorem State.respond_pendingAddr (s : State) (r : Response) : (s.respond r).pendingAddr = s.pendingAddr := rfl
@[simp] theorem State.respond_faultCause (s : State) (r : Response) : (s.respond r).faultCause = s.faultCause := rfl
@[simp] theorem State.respond_faultInfo (s : State) (r : Response) : (s.respond r).faultInfo = s.faultInfo := rfl
@[simp] theorem State.respond_response (s : State) (r : Response) : (s.respond r).response = r := rfl
@[simp] theorem State.respond_params (s : State) (r : Response) : (s.respond r).params = s.params := rfl

/-- A cell after a store to one cell. -/
theorem State.M_setM (s : State) (a : Nat) (v : Word) (k : Nat) :
    (s.setM a v).M k = if k = a then v else s.M k := Memory.read_write s.mem a k v

@[simp] theorem State.M_setM_self (s : State) (a : Nat) (v : Word) : (s.setM a v).M a = v :=
  Memory.read_write_self s.mem a v

theorem State.M_setM_ne (s : State) {a k : Nat} (v : Word) (h : k ≠ a) : (s.setM a v).M k = s.M k :=
  Memory.read_write_ne s.mem v h

@[simp] theorem State.M_setPc (s : State) (p : Word) (k : Nat) : (s.setPc p).M k = s.M k := rfl
@[simp] theorem State.M_setStack (s : State) (st : List Word) (k : Nat) : (s.setStack st).M k = s.M k := rfl
@[simp] theorem State.M_answer (s : State) (st : Status) (r : Response) (k : Nat) :
    (s.answer st r).M k = s.M k := rfl
@[simp] theorem State.M_respond (s : State) (r : Response) (k : Nat) : (s.respond r).M k = s.M k := rfl

/-- The cells are the memory's alone. -/
theorem State.M_congr {s t : State} (h : t.mem = s.mem) (k : Nat) : t.M k = s.M k := by
  rw [State.M, State.M, h]

theorem reset_memory_wf : State.reset.mem.wf = true := rfl

end Sys2Proof.Machine
end

