-- ==== Sys2Proof/Laws/Operations.lean ====
section
/-! SUPPORT. One lemma for each shared operation that says everything it can do, and the equations by which an
operation with a resolved operand goes on. -/

namespace Sys2Proof.Machine

/-! ### Answers -/

theorem raise_next {tr : Trap} {s t : State} (h : raise tr s = .next t) : faultedWith s t tr.cause tr.info := by
  cases h
  exact ⟨rfl, rfl, rfl, rfl, rfl, rfl, rfl, rfl, rfl, rfl⟩

theorem raise_takes (tr : Trap) (s : State) :
    ∃ t, raise tr s = .next t ∧ faultedWith s t tr.cause tr.info :=
  ⟨_, rfl, raise_next rfl⟩

theorem emitContinue_next {s t : State} (h : emitContinue s = .next t) : t = s.answer .ready .cont := by
  cases h; rfl

theorem emitHalt_next {s t : State} (h : emitHalt s = .next t) : t = s.answer .halted .halt := by
  cases h; rfl

theorem emitOutput_next {c : Word} {s t : State} (h : emitOutput c s = .next t) :
    t = s.answer .ready (.output c) := by
  cases h; rfl

theorem emitAwaitInput_next {a : Word} {s t : State} (h : emitAwaitInput a s = .next t) :
    t = State.answer { s with pendingAddr := a } .awaitInput (.awaitInput a) := by
  cases h; rfl

theorem storeAndContinue_next {s t : State} {n a : Nat} {v : Word} (h : storeAndContinue s n a v = .next t) :
    t = ((s.setM a v).setPc (s.past n)).answer .ready .cont := emitContinue_next h

/-- What a completed store leaves: CONTINUE, the word in its cell, every other cell, the stack, and the pc past
the instruction. -/
theorem storeAndContinue_spec (s : State) (n a : Nat) (v : Word) :
    ∃ t, storeAndContinue s n a v = .next t ∧ continued s t ∧ t.M a = v ∧ sameCellsBut a s t ∧
      t.stack = s.stack ∧ t.pc = s.pc + BitVec.ofNat 16 n :=
  ⟨_, rfl, ⟨rfl, rfl, ⟨rfl, rfl, rfl⟩, rfl, rfl⟩, State.M_setM_self s a v,
    fun _ hk => State.M_setM_ne s v hk, rfl, rfl⟩

/-! ### Operands -/

theorem dstIndex_lt {a : Dst} {d : Nat} (h : dstIndex a = .ok d) : d < 32776 := by
  cases a with
  | cell n => cases h; have := n.isLt; omega
  | reg r => cases h; have := r.isLt; simp only [regIndex]; omega
  | bad w => cases h

theorem dstIndex_error {a : Dst} {tr : Trap} (h : dstIndex a = .error tr) :
    ∃ w, a = .bad w ∧ tr = ⟨.addressOutOfRange, w⟩ := by
  cases a with
  | cell n => cases h
  | reg r => cases h
  | bad w => cases h; exact ⟨w, rfl, rfl⟩

theorem srcValue_error {o : Src} {s : State} {tr : Trap} (h : srcValue o s = .error tr) :
    ∃ w, o = .bad w ∧ tr = ⟨.invalidOperand, w⟩ := by
  cases o with
  | lit n => cases h
  | reg r => cases h
  | bad w => cases h; exact ⟨w, rfl, rfl⟩

/-- A value depends on the cells alone. -/
theorem srcValue_congr (o : Src) {s t : State} (h : t.mem = s.mem) : srcValue o t = srcValue o s := by
  cases o with
  | lit n => rfl
  | reg r => simp only [srcValue, State.reg, State.M_congr h]
  | bad w => rfl

@[simp] theorem withDst_ok {a : Dst} {s : State} {k : Nat → Result} {d : Nat} (h : dstIndex a = .ok d) :
    withDst a s k = k d := by simp [withDst, h]

@[simp] theorem withSrc_ok {o : Src} {s : State} {k : Word → Result} {v : Word} (h : srcValue o s = .ok v) :
    withSrc o s k = k v := by simp [withSrc, h]

@[simp] theorem withDst_bad (w : Word) (s : State) (k : Nat → Result) :
    withDst (.bad w) s k = raise ⟨.addressOutOfRange, w⟩ s := rfl

@[simp] theorem withSrc_bad (w : Word) (s : State) (k : Word → Result) :
    withSrc (.bad w) s k = raise ⟨.invalidOperand, w⟩ s := rfl

theorem withAddress_in {a : Word} {s : State} {k : Nat → Result} (h : a.toNat ≤ 32775) :
    withAddress a s k = k a.toNat := by
  unfold withAddress
  rw [if_neg (by omega)]

theorem withAddress_out {a : Word} {s : State} {k : Nat → Result} (h : 32775 < a.toNat) :
    withAddress a s k = raise ⟨.addressOutOfRange, a⟩ s := by
  unfold withAddress
  rw [if_pos h]

theorem withPop_nil {op : Word} {s : State} {k : Word → List Word → Result} (h : s.stack = []) :
    withPop op s k = raise ⟨.stackUnderflow, op⟩ s := by simp [withPop, h]

theorem withPop_cons {op : Word} {s : State} {k : Word → List Word → Result} {v : Word} {st : List Word}
    (h : s.stack = v :: st) : withPop op s k = k v st := by simp [withPop, h]

theorem pushAndContinue_full {s : State} {v target : Word} (h : s.stackFull = true) :
    pushAndContinue s v target = raise ⟨.stackOverflow, v⟩ s := by simp [pushAndContinue, h]

theorem pushAndContinue_room {s : State} {v target : Word} (h : s.stackFull = false) :
    pushAndContinue s v target = emitContinue ((s.setStack (v :: s.stack)).setPc target) := by
  simp [pushAndContinue, h]

theorem stackFull_iff (s : State) : s.stackFull = true ↔ s.params.stackCapacity = some s.stack.length := by
  unfold State.stackFull
  split
  · rename_i h; simp [h]
  · rename_i n h; simp [h, eq_comm]

/-! ### What an operation that answered a next state did -/

theorem withDst_next {a : Dst} {s t : State} {k : Nat → Result} (h : withDst a s k = .next t) :
    (∃ d, dstIndex a = .ok d ∧ k d = .next t) ∨
      ∃ w, a = .bad w ∧ faultedWith s t .addressOutOfRange w := by
  unfold withDst at h
  split at h
  · rename_i d hd; exact .inl ⟨d, hd, h⟩
  · rename_i tr hd
    obtain ⟨w, ha, rfl⟩ := dstIndex_error hd
    exact .inr ⟨w, ha, raise_next h⟩

theorem withSrc_next {o : Src} {s t : State} {k : Word → Result} (h : withSrc o s k = .next t) :
    (∃ v, srcValue o s = .ok v ∧ k v = .next t) ∨
      ∃ w, o = .bad w ∧ faultedWith s t .invalidOperand w := by
  unfold withSrc at h
  split at h
  · rename_i v hv; exact .inl ⟨v, hv, h⟩
  · rename_i tr hv
    obtain ⟨w, ho, rfl⟩ := srcValue_error hv
    exact .inr ⟨w, ho, raise_next h⟩

theorem withAddress_next {a : Word} {s t : State} {k : Nat → Result} (h : withAddress a s k = .next t) :
    (a.toNat ≤ 32775 ∧ k a.toNat = .next t) ∨
      (32775 < a.toNat ∧ faultedWith s t .addressOutOfRange a) := by
  unfold withAddress at h
  split at h
  · rename_i ha; exact .inr ⟨ha, raise_next h⟩
  · rename_i ha; exact .inl ⟨by omega, h⟩

theorem withPop_next {op : Word} {s t : State} {k : Word → List Word → Result} (h : withPop op s k = .next t) :
    (∃ v st, s.stack = v :: st ∧ k v st = .next t) ∨
      (s.stack = [] ∧ faultedWith s t .stackUnderflow op) := by
  unfold withPop at h
  split at h
  · rename_i hs; exact .inr ⟨hs, raise_next h⟩
  · rename_i v st hs; exact .inl ⟨v, st, hs, h⟩

theorem pushAndContinue_next {s t : State} {v target : Word} (h : pushAndContinue s v target = .next t) :
    (s.stackFull = false ∧ t = ((s.setStack (v :: s.stack)).setPc target).answer .ready .cont) ∨
      (s.stackFull = true ∧ faultedWith s t .stackOverflow v) := by
  cases hf : s.stackFull with
  | true =>
    rw [pushAndContinue_full hf] at h
    exact .inr ⟨rfl, raise_next h⟩
  | false =>
    rw [pushAndContinue_room hf] at h
    exact .inl ⟨rfl, emitContinue_next h⟩

/-! ### Fetching -/

theorem fetchWord_in {s : State} {p : Word} (h : p.toNat ≤ 32775) : fetchWord s p = .ok (s.M p.toNat) := by
  unfold fetchWord
  rw [if_neg (by omega)]

theorem fetchWord_out {s : State} {p : Word} (h : 32775 < p.toNat) : fetchWord s p = .error p := by
  unfold fetchWord
  rw [if_pos h]

/-- n fetches inside the array read n consecutive cells. -/
theorem fetchWords_in {s : State} (n : Nat) {p : Word} (h : p.toNat + n ≤ 32776) :
    ∃ ws, fetchWords s n p = .ok ws ∧ ws.length = n ∧
      ∀ k (hk : k < ws.length), ws[k] = s.M (p.toNat + k) := by
  induction n generalizing p with
  | zero => exact ⟨[], rfl, rfl, fun k hk => absurd hk (by simp)⟩
  | succ n ih =>
    have hp : (p + 1).toNat = p.toNat + 1 := by
      rw [BitVec.toNat_add]
      have : (1 : Word).toNat = 1 := rfl
      omega
    obtain ⟨ws, hws, hlen, hget⟩ := ih (p := p + 1) (by omega)
    refine ⟨s.M p.toNat :: ws, ?_, by simp [hlen], ?_⟩
    · simp only [fetchWords, fetchWord_in (show p.toNat ≤ 32775 by omega), hws]
    · intro k hk
      cases k with
      | zero => simp
      | succ k =>
        simp only [List.getElem_cons_succ, hget k (by simpa using hk), hp]
        congr 1
        omega

/-- Fetches that run past the array fault at its end, or where they start if that is past it already. -/
theorem fetchWords_out {s : State} (n : Nat) {p : Word} (hp : p.toNat ≤ 32776)
    (h : 32776 < p.toNat + n) : fetchWords s n p = .error 32776 := by
  induction n generalizing p with
  | zero => omega
  | succ n ih =>
    by_cases hin : p.toNat ≤ 32775
    · have hp1 : (p + 1).toNat = p.toNat + 1 := by
        rw [BitVec.toNat_add]
        have : (1 : Word).toNat = 1 := rfl
        omega
      simp only [fetchWords, fetchWord_in hin, ih (p := p + 1) (by omega) (by omega)]
    · have hpe : p = 32776 := BitVec.eq_of_toNat_eq (by simpa using (by omega : p.toNat = 32776))
      subst hpe
      rfl

/-! ### STEP -/

theorem step_ready {s : State} (h : s.status = .ready) :
    step s = match fetchInstr s with
      | .ok i => exec i s
      | .error p => raise (fetchFault p) s := by
  unfold step
  split <;> first | rfl | simp_all

/-- Everything a STEP that answers a next state can have done. -/
theorem step_next {s t : State} (h : step s = .next t) :
    (s.status = .ready ∧ ∃ i, fetchInstr s = .ok i ∧ exec i s = .next t) ∨
      (s.status = .ready ∧ ∃ p, fetchInstr s = .error p ∧ faultedWith s t .fetchOutOfRange p) ∨
      (s.status = .awaitInput ∧ t = s.respond (.rejected .awaitingInput)) ∨
      (s.status = .halted ∧ t = s.respond .halt) ∨
      (s.status = .faulted ∧ t = s.respond (.fault s.faultCause s.faultInfo)) := by
  cases hs : s.status with
  | ready =>
    rw [step_ready hs] at h
    split at h
    · rename_i i hi; exact .inl ⟨rfl, i, hi, h⟩
    · rename_i p hp; exact .inr (.inl ⟨rfl, p, hp, raise_next h⟩)
  | awaitInput =>
    simp only [step, hs] at h
    cases h
    exact .inr (.inr (.inl ⟨rfl, rfl⟩))
  | halted =>
    simp only [step, hs] at h
    cases h
    exact .inr (.inr (.inr (.inl ⟨rfl, rfl⟩)))
  | faulted =>
    simp only [step, hs] at h
    cases h
    exact .inr (.inr (.inr (.inr ⟨rfl, rfl⟩)))

end Sys2Proof.Machine
end

