-- ==== Sys2Proof/Laws/Effects.lean ====
section
/-! SUPPORT. Everything an instruction that answers a next state can have done, said once (`exec_effect`), so
that no later proof unfolds a meaning to find its frame. -/

namespace Sys2Proof.Machine

/-- The ways an instruction ends in a next state. -/
inductive Effect (i : Instr) (s t : State) : Prop
  /-- It took a fault, which changed nothing but the status fields. -/
  | fault (cause : FaultCause) (info : Word) (named : cause ≠ .none) (taken : faultedWith s t cause info)
  /-- It stored one word and went on. -/
  | store (d : Nat) (v p : Word) (inArray : d < 32776) (stored : storedAt i s = some d)
      (after : t = ((s.setM d v).setPc p).answer .ready .cont)
  /-- POP: one word left the stack for a cell. -/
  | pop (a : Dst) (d : Nat) (v p : Word) (st : List Word) (isPop : i = .pop a) (index : dstIndex a = .ok d)
      (top : s.stack = v :: st) (after : t = (((s.setStack st).setM d v).setPc p).answer .ready .cont)
  /-- It moved the pc alone. -/
  | move (p : Word) (after : t = (s.setPc p).answer .ready .cont)
  /-- PUSH or CALL: one word joined the stack. -/
  | push (v p : Word) (pushes : movesStack i = true) (room : s.stackFull = false)
      (after : t = ((s.setStack (v :: s.stack)).setPc p).answer .ready .cont)
  /-- RET: one word left the stack for the pc. -/
  | ret (v : Word) (st : List Word) (isRet : i = .ret) (top : s.stack = v :: st)
      (after : t = ((s.setStack st).setPc v).answer .ready .cont)
  /-- It halted. -/
  | halt (p : Word) (after : t = (s.setPc p).answer .halted .halt)
  /-- OUT: it handed a character to the host. -/
  | output (c p : Word) (after : t = (s.setPc p).answer .ready (.output c))
  /-- IN: it asks the host for a word. -/
  | await (d : Nat) (p : Word) (inArray : d < 32776)
      (after : t = State.answer { s.setPc p with pendingAddr := BitVec.ofNat 16 d } .awaitInput
        (.awaitInput (BitVec.ofNat 16 d)))

theorem alu3_effect {i : Instr} {f : Word → Word → Word} {a : Dst} {b c : Src} {s t : State}
    (h : alu3 f a b c s = .next t) (hi : storedAt i s = (dstIndex a).toOption) : Effect i s t := by
  obtain ⟨d, hd, h⟩ | ⟨w, -, h⟩ := withDst_next h
  · obtain ⟨x, -, h⟩ | ⟨w, -, h⟩ := withSrc_next h
    · obtain ⟨y, -, h⟩ | ⟨w, -, h⟩ := withSrc_next h
      · exact .store d _ _ (dstIndex_lt hd) (by rw [hi, hd]; rfl) (storeAndContinue_next h)
      · exact .fault _ _ (by simp) h
    · exact .fault _ _ (by simp) h
  · exact .fault _ _ (by simp) h

theorem jump_effect {i : Instr} {a : Src} {s t : State} {target : Word → Word}
    (h : (withSrc a s fun v => emitContinue (s.setPc (target v))) = .next t) : Effect i s t := by
  obtain ⟨v, -, h⟩ | ⟨w, -, h⟩ := withSrc_next h
  · exact .move _ (emitContinue_next h)
  · exact .fault _ _ (by simp) h

theorem push_effect {i : Instr} {a : Src} {s t : State} {pushed target : Word → Word} (hi : movesStack i = true)
    (h : (withSrc a s fun v => pushAndContinue s (pushed v) (target v)) = .next t) : Effect i s t := by
  obtain ⟨v, -, h⟩ | ⟨w, -, h⟩ := withSrc_next h
  · obtain ⟨hf, h⟩ | ⟨-, h⟩ := pushAndContinue_next h
    · exact .push _ _ hi hf h
    · exact .fault _ _ (by simp) h
  · exact .fault _ _ (by simp) h

/-- Everything an instruction that answers a next state can have done. -/
theorem exec_effect {i : Instr} {s t : State} (h : exec i s = .next t) : Effect i s t := by
  cases i with
  | halt => exact .halt _ (emitHalt_next h)
  | unknown op => exact .halt _ (emitHalt_next h)
  | nop => exact .move _ (emitContinue_next h)
  | jmp a => exact jump_effect (target := fun v => v) h
  | jt a b => exact jump_effect (target := fun v => if wordTrue v then b else s.past 3) h
  | jf a b => exact jump_effect (target := fun v => if wordTrue v then s.past 3 else b) h
  | call a => exact push_effect (pushed := fun _ => s.past 2) (target := fun v => v) rfl h
  | push a => exact push_effect (pushed := fun v => v) (target := fun _ => s.past 2) rfl h
  | ret =>
    obtain ⟨v, st, hs, h⟩ | ⟨-, h⟩ := withPop_next h
    · exact .ret v st rfl hs (emitContinue_next h)
    · exact .fault _ _ (by simp) h
  | pop a =>
    obtain ⟨d, hd, h⟩ | ⟨w, -, h⟩ := withDst_next h
    · obtain ⟨v, st, hs, h⟩ | ⟨-, h⟩ := withPop_next h
      · exact .pop a d v _ st rfl hd hs (storeAndContinue_next h)
      · exact .fault _ _ (by simp) h
    · exact .fault _ _ (by simp) h
  | set a b =>
    obtain ⟨d, hd, h⟩ | ⟨w, -, h⟩ := withDst_next h
    · obtain ⟨v, -, h⟩ | ⟨w, -, h⟩ := withSrc_next h
      · exact .store d _ _ (dstIndex_lt hd) (by simp [storedAt, hd, Except.toOption]) (storeAndContinue_next h)
      · exact .fault _ _ (by simp) h
    · exact .fault _ _ (by simp) h
  | rmem a b =>
    obtain ⟨d, hd, h⟩ | ⟨w, -, h⟩ := withDst_next h
    · obtain ⟨v, -, h⟩ | ⟨w, -, h⟩ := withSrc_next h
      · obtain ⟨-, h⟩ | ⟨-, h⟩ := withAddress_next h
        · exact .store d _ _ (dstIndex_lt hd) (by simp [storedAt, hd, Except.toOption]) (storeAndContinue_next h)
        · exact .fault _ _ (by simp) h
      · exact .fault _ _ (by simp) h
    · exact .fault _ _ (by simp) h
  | wmem a b =>
    obtain ⟨d, hd, h⟩ | ⟨w, -, h⟩ := withSrc_next h
    · obtain ⟨v, -, h⟩ | ⟨w, -, h⟩ := withSrc_next h
      · obtain ⟨hb, h⟩ | ⟨-, h⟩ := withAddress_next h
        · exact .store d.toNat _ _ (by omega) (by simp [storedAt, hd, Except.toOption]) (storeAndContinue_next h)
        · exact .fault _ _ (by simp) h
      · exact .fault _ _ (by simp) h
    · exact .fault _ _ (by simp) h
  | eq a b c => exact alu3_effect h rfl
  | gt a b c => exact alu3_effect h rfl
  | add a b c => exact alu3_effect h rfl
  | mul a b c => exact alu3_effect h rfl
  | and a b c => exact alu3_effect h rfl
  | or a b c => exact alu3_effect h rfl
  | mod a b c =>
    obtain ⟨d, hd, h⟩ | ⟨w, -, h⟩ := withDst_next h
    · obtain ⟨x, -, h⟩ | ⟨w, -, h⟩ := withSrc_next h
      · obtain ⟨y, -, h⟩ | ⟨w, -, h⟩ := withSrc_next h
        · split at h
          · exact .fault _ _ (by simp) (raise_next h)
          · exact .store d _ _ (dstIndex_lt hd) (by simp [storedAt, hd, Except.toOption])
              (storeAndContinue_next h)
        · exact .fault _ _ (by simp) h
      · exact .fault _ _ (by simp) h
    · exact .fault _ _ (by simp) h
  | not a b =>
    obtain ⟨d, hd, h⟩ | ⟨w, -, h⟩ := withDst_next h
    · obtain ⟨x, -, h⟩ | ⟨w, -, h⟩ := withSrc_next h
      · split at h
        · exact .store d _ _ (dstIndex_lt hd) (by simp [storedAt, hd, Except.toOption]) (storeAndContinue_next h)
        · cases h
      · exact .fault _ _ (by simp) h
    · exact .fault _ _ (by simp) h
  | out a =>
    obtain ⟨c, -, h⟩ | ⟨w, -, h⟩ := withSrc_next h
    · split at h
      · exact .output _ _ (emitOutput_next h)
      · exact .fault _ _ (by simp) (raise_next h)
    · exact .fault _ _ (by simp) h
  | inp a =>
    obtain ⟨d, hd, h⟩ | ⟨w, -, h⟩ := withDst_next h
    · exact .await d _ (dstIndex_lt hd) (emitAwaitInput_next h)
    · exact .fault _ _ (by simp) h

end Sys2Proof.Machine
end

