-- ==== Sys2Proof/Laws/PerInstr.lean ====
section
/-! SUPPORT. What holds of every instruction as syntax, one lemma per constructor. -/

namespace Sys2Proof.Laws.EncodedLength

/-- An instruction's words are its opcode word and as many operand words as that opcode word calls for
(30_encoding R102). -/
def Statement (i : Instr) : Prop := i.wf = true → (encode i).length = 1 + operandCount (opcodeOf i)

theorem halt : Statement .halt := fun _ => rfl
theorem set (a : Dst) (b : Src) : Statement (.set a b) := fun _ => rfl
theorem push (a : Src) : Statement (.push a) := fun _ => rfl
theorem pop (a : Dst) : Statement (.pop a) := fun _ => rfl
theorem eq (a : Dst) (b c : Src) : Statement (.eq a b c) := fun _ => rfl
theorem gt (a : Dst) (b c : Src) : Statement (.gt a b c) := fun _ => rfl
theorem jmp (a : Src) : Statement (.jmp a) := fun _ => rfl
theorem jt (a : Src) (b : Word) : Statement (.jt a b) := fun _ => rfl
theorem jf (a : Src) (b : Word) : Statement (.jf a b) := fun _ => rfl
theorem add (a : Dst) (b c : Src) : Statement (.add a b c) := fun _ => rfl
theorem mul (a : Dst) (b c : Src) : Statement (.mul a b c) := fun _ => rfl
theorem mod (a : Dst) (b c : Src) : Statement (.mod a b c) := fun _ => rfl
theorem and (a : Dst) (b c : Src) : Statement (.and a b c) := fun _ => rfl
theorem or (a : Dst) (b c : Src) : Statement (.or a b c) := fun _ => rfl
theorem not (a : Dst) (b : Src) : Statement (.not a b) := fun _ => rfl
theorem rmem (a : Dst) (b : Src) : Statement (.rmem a b) := fun _ => rfl
theorem wmem (a b : Src) : Statement (.wmem a b) := fun _ => rfl
theorem call (a : Src) : Statement (.call a) := fun _ => rfl
theorem ret : Statement .ret := fun _ => rfl
theorem out (a : Src) : Statement (.out a) := fun _ => rfl
theorem inp (a : Dst) : Statement (.inp a) := fun _ => rfl
theorem nop : Statement .nop := fun _ => rfl

/-- The operand count of an opcode word that is none of the 22. -/
theorem operandCount_unknown {op : Word} (h : 21 < op.toNat) : operandCount op = 0 := by
  unfold operandCount
  split <;> omega

theorem unknown (op : Word) : Statement (.unknown op) := by
  intro h
  have hop : 21 < op.toNat := by simpa [Instr.wf] using h
  simp [encode, operandsOf, opcodeOf, operandCount_unknown hop]

end Sys2Proof.Laws.EncodedLength
end

