-- ==== Sys2Proof/Laws/Encoding.lean ====
section
/-! SUPPORT. Operand words and their classes are one to one: the small lemmas of `srcOfWord`, `dstOfWord` and
`instrOfWords` (30_encoding R92, R96, R97). -/

namespace Sys2Proof

theorem srcOfWord_literal {w : Word} (h : w.toNat < 32768) : srcOfWord w = .lit (BitVec.ofNat 15 w.toNat) :=
  if_pos h

theorem srcOfWord_selector {w : Word} (h : ¬ w.toNat < 32768) (h' : w.toNat < 32776) :
    srcOfWord w = .reg (Fin.ofNat 8 (w.toNat - 32768)) := by
  unfold srcOfWord
  rw [if_neg h, if_pos h']

theorem srcOfWord_invalid {w : Word} (h : ¬ w.toNat < 32776) : srcOfWord w = .bad w := by
  unfold srcOfWord
  rw [if_neg (by omega), if_neg h]

theorem dstOfWord_cell {w : Word} (h : w.toNat < 32768) : dstOfWord w = .cell (BitVec.ofNat 15 w.toNat) :=
  if_pos h

theorem dstOfWord_register {w : Word} (h : ¬ w.toNat < 32768) (h' : w.toNat < 32776) :
    dstOfWord w = .reg (Fin.ofNat 8 (w.toNat - 32768)) := by
  unfold dstOfWord
  rw [if_neg h, if_pos h']

theorem dstOfWord_invalid {w : Word} (h : ¬ w.toNat < 32776) : dstOfWord w = .bad w := by
  unfold dstOfWord
  rw [if_neg (by omega), if_neg h]

/-- The 15-bit literal of a word below 32768, zero-extended, is the word (30_encoding R94). -/
theorem literal_word {w : Word} (h : w.toNat < 32768) :
    BitVec.ofNat 16 (BitVec.ofNat 15 w.toNat).toNat = w := by
  apply BitVec.eq_of_toNat_eq
  simp only [BitVec.toNat_ofNat]
  omega

/-- The register a selector word names has the index the word is. -/
theorem selector_index {w : Word} (h : ¬ w.toNat < 32768) (h' : w.toNat < 32776) :
    32768 + (Fin.ofNat 8 (w.toNat - 32768)).val = w.toNat := by
  simp only [Fin.val_ofNat]
  omega

theorem literal_toNat (n : BitVec 15) : (BitVec.ofNat 16 n.toNat).toNat = n.toNat := by
  have := n.isLt
  simp only [BitVec.toNat_ofNat]
  omega

theorem selector_toNat (r : Fin 8) : (BitVec.ofNat 16 (32768 + r.val)).toNat = 32768 + r.val := by
  have := r.isLt
  simp only [BitVec.toNat_ofNat]
  omega

theorem selector_register (r : Fin 8) : Fin.ofNat 8 (32768 + r.val - 32768) = r := by
  apply Fin.ext
  have := r.isLt
  simp only [Fin.val_ofNat]
  omega

/-- The class of a well-formed value operand's word is the operand. -/
theorem srcOfWord_srcToWord {o : Src} (h : o.wf = true) : srcOfWord (srcToWord o) = o := by
  cases o with
  | lit n =>
    have := n.isLt
    simp only [srcToWord]
    rw [srcOfWord_literal (by rw [literal_toNat]; omega), literal_toNat, BitVec.ofNat_toNat, BitVec.setWidth_eq]
  | reg r =>
    have := r.isLt
    simp only [srcToWord]
    rw [srcOfWord_selector (by rw [selector_toNat]; omega) (by rw [selector_toNat]; omega), selector_toNat,
      selector_register]
  | bad w =>
    simp only [Src.wf, decide_eq_true_eq] at h
    simp only [srcToWord]
    rw [srcOfWord_invalid (by omega)]

/-- The class of a well-formed address operand's word is the operand. -/
theorem dstOfWord_dstToWord {o : Dst} (h : o.wf = true) : dstOfWord (dstToWord o) = o := by
  cases o with
  | cell n =>
    have := n.isLt
    simp only [dstToWord]
    rw [dstOfWord_cell (by rw [literal_toNat]; omega), literal_toNat, BitVec.ofNat_toNat, BitVec.setWidth_eq]
  | reg r =>
    have := r.isLt
    simp only [dstToWord]
    rw [dstOfWord_register (by rw [selector_toNat]; omega) (by rw [selector_toNat]; omega), selector_toNat,
      selector_register]
  | bad w =>
    simp only [Dst.wf, decide_eq_true_eq] at h
    simp only [dstToWord]
    rw [dstOfWord_invalid (by omega)]

/-- Every operand word is the word of its class: no bit is dropped. -/
@[simp] theorem srcToWord_srcOfWord (w : Word) : srcToWord (srcOfWord w) = w := by
  by_cases h : w.toNat < 32768
  · rw [srcOfWord_literal h]
    exact literal_word h
  · by_cases h' : w.toNat < 32776
    · rw [srcOfWord_selector h h']
      simp only [srcToWord, selector_index h h', BitVec.ofNat_toNat, BitVec.setWidth_eq]
    · rw [srcOfWord_invalid h']
      rfl

@[simp] theorem dstToWord_dstOfWord (w : Word) : dstToWord (dstOfWord w) = w := by
  by_cases h : w.toNat < 32768
  · rw [dstOfWord_cell h]
    exact literal_word h
  · by_cases h' : w.toNat < 32776
    · rw [dstOfWord_register h h']
      simp only [dstToWord, selector_index h h', BitVec.ofNat_toNat, BitVec.setWidth_eq]
    · rw [dstOfWord_invalid h']
      rfl

@[simp] theorem srcOfWord_wf (w : Word) : (srcOfWord w).wf = true := by
  unfold srcOfWord
  split
  · rfl
  · split
    · rfl
    · simp only [Src.wf, decide_eq_true_eq]
      omega

@[simp] theorem dstOfWord_wf (w : Word) : (dstOfWord w).wf = true := by
  unfold dstOfWord
  split
  · rfl
  · split
    · rfl
    · simp only [Dst.wf, decide_eq_true_eq]
      omega

theorem operandCount_le (op : Word) : operandCount op ≤ 3 := by
  unfold operandCount
  split <;> omega

/-- The instruction an opcode word makes has that opcode word (30_encoding R98). -/
theorem opcodeOf_instrOfWords (op a b c : Word) : opcodeOf (instrOfWords op a b c) = op := by
  have code : ∀ k : Nat, op.toNat = k → BitVec.ofNat 16 k = op := by
    intro k hk
    subst hk
    simp
  unfold instrOfWords
  split <;> rename_i h <;> first | exact code _ h | rfl

end Sys2Proof
end

