-- ==== Sys2Proof/Tests/Slice0.lean ====
section
/-! SUPPORT. The model's own tests: ill-formed terms are refused, words written out from the spec decode to their
instructions, single steps give what 95_test_vectors says, and every statement's hypotheses can be met. -/

namespace Sys2Proof.Machine.Tests

/-! ### Well-formedness: one ill-formed term for each check -/

theorem test_src_bad_below_range_refused : (Src.bad 32775).wf = false := by decide
theorem test_dst_bad_below_range_refused : (Dst.bad 32775).wf = false := by decide
theorem test_unknown_of_a_known_opcode_refused : (Instr.unknown 21).wf = false := by decide
theorem test_ill_formed_destination_refused : (Instr.add (.bad 0) (.reg 1) (.lit 4)).wf = false := by decide
theorem test_ill_formed_second_operand_refused : (Instr.wmem (.lit 1) (.bad 5)).wf = false := by decide
theorem test_ill_formed_third_operand_refused : (Instr.eq (.reg 0) (.lit 1) (.bad 7)).wf = false := by decide

/-! ### Decoding: words from the table of 95_test_vectors E6 and from 30_encoding R97 -/

theorem test_decode_halt : decode [0] = .ok (.halt, []) := by decide
theorem test_decode_set : decode [1, 32768, 5] = .ok (.set (.reg 0) (.lit 5), []) := by decide
theorem test_decode_push : decode [2, 32775] = .ok (.push (.reg 7), []) := by decide
theorem test_decode_pop : decode [3, 100] = .ok (.pop (.cell 100), []) := by decide
theorem test_decode_eq : decode [4, 32768, 32769, 0] = .ok (.eq (.reg 0) (.reg 1) (.lit 0), []) := by decide
theorem test_decode_gt : decode [5, 32768, 3, 32770] = .ok (.gt (.reg 0) (.lit 3) (.reg 2), []) := by decide
theorem test_decode_jmp : decode [6, 12] = .ok (.jmp (.lit 12), []) := by decide
theorem test_decode_jt : decode [7, 32768, 32769] = .ok (.jt (.reg 0) 32769, []) := by decide
theorem test_decode_jf : decode [8, 0, 40] = .ok (.jf (.lit 0) 40, []) := by decide
theorem test_decode_add : decode [9, 32768, 32769, 4] = .ok (.add (.reg 0) (.reg 1) (.lit 4), []) := by decide
theorem test_decode_mul : decode [10, 32768, 2, 3] = .ok (.mul (.reg 0) (.lit 2) (.lit 3), []) := by decide
theorem test_decode_mod : decode [11, 32768, 10, 3] = .ok (.mod (.reg 0) (.lit 10) (.lit 3), []) := by decide
theorem test_decode_and : decode [12, 32768, 32769, 255] = .ok (.and (.reg 0) (.reg 1) (.lit 255), []) := by decide
theorem test_decode_or : decode [13, 32768, 32769, 256] = .ok (.or (.reg 0) (.reg 1) (.lit 256), []) := by decide
theorem test_decode_not : decode [14, 32768, 0] = .ok (.not (.reg 0) (.lit 0), []) := by decide
theorem test_decode_rmem : decode [15, 32768, 20] = .ok (.rmem (.reg 0) (.lit 20), []) := by decide
theorem test_decode_wmem : decode [16, 100, 40000] = .ok (.wmem (.lit 100) (.bad 40000), []) := by decide
theorem test_decode_call : decode [17, 32770] = .ok (.call (.reg 2), []) := by decide
theorem test_decode_ret : decode [18] = .ok (.ret, []) := by decide
theorem test_decode_out : decode [19, 65] = .ok (.out (.lit 65), []) := by decide
theorem test_decode_in : decode [20, 32768] = .ok (.inp (.reg 0), []) := by decide
theorem test_decode_nop : decode [21] = .ok (.nop, []) := by decide
theorem test_decode_unknown : decode [22, 1, 2] = .ok (.unknown 22, [1, 2]) := by decide
theorem test_decode_selector_as_opcode : decode [32768, 1] = .ok (.unknown 32768, [1]) := by decide
theorem test_decode_top_literal_and_top_selector :
    decode [1, 32767, 32775] = .ok (.set (.cell 32767) (.reg 7), []) := by decide
theorem test_decode_first_invalid_words :
    decode [1, 32776, 32776] = .ok (.set (.bad 32776) (.bad 32776), []) := by decide
theorem test_decode_rejects_no_words : decode [] = .error .noOpcode := by decide
theorem test_decode_rejects_missing_operand : decode [9, 1, 2] = .error (.missingOperand 9 2) := by decide
theorem test_decode_table_word : decodeTableWord 16 11 = some (.mod (.cell 0) (.lit 0) (.lit 0)) := by decide
theorem test_decode_table_word_second_word :
    decodeTableWord 32 (17 + 32770 * 65536) = some (.call (.reg 2)) := by decide

/-! ### One step on a small state -/

/-- The state after LOAD of the given words, with some cells set before the first STEP. -/
def boot (words : List Word) (cells : List (Nat × Word)) : State :=
  cells.foldl (fun s c => s.setM c.1 c.2) (State.reset.placeWords 0 words)

/-- The default parameters but STACK_CAPACITY = 1. -/
def oneEntry : Params := { Params.standard with stackCapacity := some 1 }

/-- What is seen of the state a step leaves. -/
def seen {α : Type} (f : State → α) : Result → Option α
  | .next t => some (f t)
  | _ => none

/-- One cell, the pc and the answer after one STEP. -/
def cellPcAnswer (a : Nat) (s : State) : Option (Word × Word × Response) :=
  seen (fun t => (t.M a, t.pc, t.response)) (step s)

/-- The stack, the pc and the answer after one STEP. -/
def stackPcAnswer (s : State) : Option (List Word × Word × Response) :=
  seen (fun t => (t.stack, t.pc, t.response)) (step s)

-- V-CTL-1, V-CTL-14, V-CTL-15
theorem test_halt : seen (fun t => (t.pc, t.status, t.response)) (step (boot [0] [])) =
    some (1, .halted, .halt) := by decide
theorem test_unknown : seen (fun t => (t.pc, t.status, t.response)) (step (boot [65535, 1, 2] [])) =
    some (1, .halted, .halt) := by decide
-- V-CTL-3, V-CTL-18
theorem test_jmp : stackPcAnswer (boot [6, 32768] [(32768, 5)]) = some ([], 5, .cont) := by decide
theorem test_jmp_out_of_array : stackPcAnswer (boot [6, 32768] [(32768, 65535)]) =
    some ([], 65535, .cont) := by decide
-- V-CTL-4, V-CTL-7
theorem test_jt_raw_target : stackPcAnswer (boot [7, 32768, 32769] [(32768, 1), (32769, 50)]) =
    some ([], 32769, .cont) := by decide
theorem test_jt_not_taken : stackPcAnswer (boot [7, 32768, 100] []) = some ([], 3, .cont) := by decide
-- V-CTL-5, V-CTL-8
theorem test_jf_raw_target : stackPcAnswer (boot [8, 32768, 32770] [(32770, 9)]) =
    some ([], 32770, .cont) := by decide
theorem test_jf_not_taken : stackPcAnswer (boot [8, 5, 40] []) = some ([], 3, .cont) := by decide
-- V-CTL-19, V-DAT-16 (its second step)
theorem test_call : stackPcAnswer (boot [17, 32768] [(32768, 50000)]) = some ([2], 50000, .cont) := by decide
theorem test_call_full_stack :
    stackPcAnswer { (boot [2, 1, 17, 10] []) with pc := 2, stack := [1], params := oneEntry } =
      some ([1], 2, .fault .stackOverflow 4) := by decide
-- V-CTL-11, V-CTL-12 (the stack is held top first)
theorem test_ret : stackPcAnswer ((boot [18] []).setStack [4, 7]) = some ([7], 4, .cont) := by decide
theorem test_ret_empty : stackPcAnswer (boot [18] []) = some ([], 0, .fault .stackUnderflow 18) := by decide
-- V-CTL-13
theorem test_nop : stackPcAnswer (boot [21] []) = some ([], 1, .cont) := by decide
-- V-DAT-2, V-DAT-4
theorem test_set_memory_cell : cellPcAnswer 100 (boot [1, 100, 32769] [(32769, 40000)]) =
    some (40000, 3, .cont) := by decide
theorem test_set_invalid_operand : cellPcAnswer 32768 (boot [1, 32768, 32776] []) =
    some (0, 0, .fault .invalidOperand 32776) := by decide
-- V-DAT-5, V-DAT-15 (its second step)
theorem test_push_register : stackPcAnswer (boot [2, 32768] [(32768, 9)]) = some ([9], 2, .cont) := by decide
theorem test_push_full_stack :
    stackPcAnswer { (boot [2, 1, 2, 2] []) with pc := 2, stack := [1], params := oneEntry } =
      some ([1], 2, .fault .stackOverflow 2) := by decide
-- V-DAT-6, V-DAT-7
theorem test_pop : cellPcAnswer 32770 ((boot [3, 32770] []).setStack [7]) = some (7, 2, .cont) := by decide
theorem test_pop_address_before_stack : stackPcAnswer (boot [3, 40000] []) =
    some ([], 0, .fault .addressOutOfRange 40000) := by decide
-- V-DAT-9, V-DAT-10
theorem test_rmem_register_cell : cellPcAnswer 32768 (boot [15, 32768, 32769] [(32769, 32771), (32771, 8)]) =
    some (8, 3, .cont) := by decide
theorem test_rmem_out_of_array : cellPcAnswer 32768 (boot [15, 32768, 32769] [(32769, 32776)]) =
    some (0, 0, .fault .addressOutOfRange 32776) := by decide
-- V-DAT-12, V-DAT-14
theorem test_wmem_register_cell : cellPcAnswer 32770 (boot [16, 32768, 5] [(32768, 32770)]) =
    some (5, 3, .cont) := by decide
theorem test_wmem_own_operand : cellPcAnswer 1 (boot [16, 1, 7] []) = some (7, 3, .cont) := by decide
-- V-ALU-3, V-ALU-2
theorem test_eq_equal : cellPcAnswer 32768 (boot [4, 32768, 32769, 5] [(32769, 5)]) = some (1, 4, .cont) := by decide
theorem test_eq_different : cellPcAnswer 32768 (boot [4, 32768, 7, 8] [(32768, 9)]) = some (0, 4, .cont) := by decide
-- V-ALU-6, V-ALU-5
theorem test_gt_unsigned : cellPcAnswer 32768 (boot [5, 32768, 32769, 32767] [(32769, 40000)]) =
    some (1, 4, .cont) := by decide
theorem test_gt_strict : cellPcAnswer 32768 (boot [5, 32768, 7, 7] []) = some (0, 4, .cont) := by decide
-- V-ALU-8, V-ALU-31
theorem test_add_high_operands : cellPcAnswer 32768 (boot [9, 32768, 32769, 32769] [(32769, 65535)]) =
    some (32766, 4, .cont) := by decide
theorem test_add_source_is_destination : cellPcAnswer 32768 (boot [9, 32768, 32768, 32768] [(32768, 7)]) =
    some (14, 4, .cont) := by decide
-- E3, V-ALU-12
theorem test_mul_largest : cellPcAnswer 32768 (boot [10, 32768, 32767, 32767] []) = some (1, 4, .cont) := by decide
theorem test_mul_high_operand : cellPcAnswer 32768 (boot [10, 32768, 32769, 3] [(32769, 32768)]) =
    some (0, 4, .cont) := by decide
-- V-ALU-15, V-ALU-16
theorem test_mod_high_dividend : cellPcAnswer 32768 (boot [11, 32768, 32769, 7] [(32769, 40000)]) =
    some (2, 4, .cont) := by decide
theorem test_mod_by_zero : cellPcAnswer 32768 (boot [11, 32768, 7, 0] []) =
    some (0, 0, .fault .divideByZero 7) := by decide
-- V-ALU-18, V-ALU-19
theorem test_and_high : cellPcAnswer 32768 (boot [12, 32768, 32769, 4660] [(32769, 65535)]) =
    some (4660, 4, .cont) := by decide
theorem test_and : cellPcAnswer 32768 (boot [12, 32768, 12, 10] []) = some (8, 4, .cont) := by decide
-- V-ALU-20, V-ALU-21
theorem test_or_high : cellPcAnswer 32768 (boot [13, 32768, 32769, 1] [(32769, 32768)]) =
    some (32769, 4, .cont) := by decide
theorem test_or : cellPcAnswer 32768 (boot [13, 32768, 12, 10] []) = some (14, 4, .cont) := by decide
-- V-ALU-25, V-ALU-26
theorem test_not_high_mask15 : cellPcAnswer 32768 (boot [14, 32768, 32769] [(32769, 40000)]) =
    some (25535, 3, .cont) := by decide
theorem test_not_high_wrap16 :
    cellPcAnswer 32768 { (boot [14, 32768, 32769] [(32769, 40000)]) with
      params := { Params.standard with notHigh := .wrap16 } } = some (58303, 3, .cont) := by decide
-- V-IO-2, V-IO-4
theorem test_out_surrogate : stackPcAnswer (boot [19, 32768] [(32768, 55296)]) =
    some ([], 0, .fault .invalidCharacter 55296) := by decide
theorem test_out_above_surrogates : stackPcAnswer (boot [19, 32768] [(32768, 57344)]) =
    some ([], 2, .output 57344) := by decide
-- V-IO-7 (its first request), V-IO-8
theorem test_in : seen (fun t => (t.pendingAddr, t.status, t.response, t.pc)) (step (boot [20, 50] [])) =
    some (50, .awaitInput, .awaitInput 50, 2) := by decide
theorem test_in_out_of_array : stackPcAnswer (boot [20, 40000] []) =
    some ([], 0, .fault .addressOutOfRange 40000) := by decide

-- V-ALU-29, V-ALU-30: the order of operand faults
theorem test_fault_order_destination_first : stackPcAnswer (boot [9, 40000, 40001, 0] []) =
    some ([], 0, .fault .addressOutOfRange 40000) := by decide
theorem test_fault_order_b_before_c : stackPcAnswer (boot [9, 32768, 40001, 40002] []) =
    some ([], 0, .fault .invalidOperand 40001) := by decide
-- V-CTL-16 (its second step), V-HOST-6 and V-HOST-7 (their second steps)
theorem test_fetch_out_of_array : stackPcAnswer ((boot [] []).setPc 32776) =
    some ([], 32776, .fault .fetchOutOfRange 32776) := by decide
theorem test_fetch_from_a_register : stackPcAnswer ((boot [] []).setPc 32773) = some ([], 32774, .halt) := by decide
theorem test_fetch_operands_past_the_array : stackPcAnswer ((boot [] [(32773, 9)]).setPc 32773) =
    some ([], 32773, .fault .fetchOutOfRange 32776) := by decide
-- the host's placing of an instruction: MOD of zeros takes its fault as the first instruction after reset
theorem test_with_fetch_word : stackPcAnswer (State.reset.withFetchWord 16 11) =
    some ([], 0, .fault .divideByZero 0) := by decide
theorem test_with_fetch_word_operand : stackPcAnswer (State.reset.withFetchWord 32 (6 + 12 * 65536)) =
    some ([], 12, .cont) := by decide

/-! ### Ports, codec and introspection -/

/-- The reply of a served request and one cell after it. -/
def replyAndCell (a : Nat) : Served → Option (Reply × Word)
  | .reply q t => some (q, t.M a)
  | .stopped _ => none

/-- A state that awaits input for register 0, as after V-HOST-1's first STEP. -/
def awaiting : State :=
  { (boot [20, 32768] []) with pc := 2, status := .awaitInput, pendingAddr := 32768, response := .awaitInput 32768 }

-- V-HOST-1, V-HOST-2, V-HOST-3, V-HOST-4
theorem test_step_while_awaiting : stackPcAnswer awaiting = some ([], 2, .rejected .awaitingInput) := by decide
theorem test_supply_not_awaiting : replyAndCell 0 (serve (.supplyInput 0 5) (boot [21, 0] [])) =
    some (.rejected .notAwaitingInput, 21) := by decide
theorem test_supply_bad_index : replyAndCell 32768 (serve (.supplyInput 40000 1) awaiting) =
    some (.rejected .addressOutOfRange, 0) := by decide
theorem test_supply_other_index : replyAndCell 100 (serve (.supplyInput 100 9) awaiting) =
    some (.ok, 9) := by decide
-- V-HOST-10
theorem test_read_stack_bottom_first :
    replyAndCell 0 (serve .readStack ((boot [] []).setStack [3, 2, 1])) = some (.words [1, 2, 3], 0) := by decide
-- 49_host_interface R262
theorem test_debug_write_absent : replyAndCell 7 (serve (.writeMem 7 1) (boot [] [])) = some (.noPort, 0) := by decide
theorem test_debug_write_stack :
    replyAndCell 0 (serve .readStack (match serve (.writeStack 0 9) { ((boot [] []).setStack [3, 2, 1]) with
      params := { Params.standard with debugWrite := true } } with
      | .reply _ t => t
      | .stopped _ => State.reset)) = some (.words [9, 2, 3], 0) := by decide
-- V-COD-3, V-COD-4, and LOAD of V-COD-5's bytes
theorem test_codec_odd_byte : imageWords [0x34, 0x12, 0xFF] = [4660] := by decide
theorem test_codec_pairs : imageWords [0x00, 0x80, 0xFF, 0xFF, 0x07, 0x80] = [32768, 65535, 32775] := by decide
theorem test_load : (load Params.standard [0x13, 0x00, 0x45, 0x00, 0x00, 0x00]).mem = [(0, 19), (1, 69)] ∧
    (load Params.standard [0x13, 0x00, 0x45, 0x00, 0x00, 0x00]).wordCount = 3 := by decide
-- V-DIS-1, V-DIS-2, V-DIS-4, V-DIS-7
theorem test_disassemble_add : disassemble (boot [9, 32768, 32769, 4] []) 0 =
    some ['A', 'D', 'D', ' ', 'r', '0', ' ', 'r', '1', ' ', '4'] := by decide
theorem test_disassemble_unknown : disassemble (boot [9, 32768, 32769, 4] []) 1 = some ['?', '?', '?'] := by decide
theorem test_disassemble_past_the_array : disassemble (boot [] [(32775, 9)]) 32775 = none ∧
    instructionLength (boot [] [(32775, 9)]) 32775 = some 4 := by decide
theorem test_disassemble_invalid_operand : disassemble (boot [1, 32768, 40000] []) 0 =
    some ['S', 'E', 'T', ' ', 'r', '0', ' ', '4', '0', '0', '0', '0'] := by decide
-- memory keeps its canonical form: writing 0 removes the entry
theorem test_write_zero_removes_entry : ((State.reset.setM 5 9).setM 5 0).mem = [] := by decide
theorem test_write_keeps_order : ((State.reset.setM 9 1).setM 5 2).mem = [(5, 2), (9, 1)] := by decide

/-! ### Witnesses: states and operands that meet the hypotheses of each statement, clause by clause -/

theorem seen_next {α : Type} {f : State → α} {r : Result} {x : α} (h : seen f r = some x) :
    ∃ t, r = .next t ∧ f t = x := by
  cases r with
  | next t => exact ⟨t, rfl, by simpa [seen] using h⟩
  | fault r => cases r
  | refused r => cases h

/-- Registers r1 = 40000, r2 = 0, r3 = 32775, r4 = 32776, r5 = 1 and a stack of one entry. -/
def ops : State :=
  (boot [] [(32769, 40000), (32771, 32775), (32772, 32776), (32773, 1)]).setStack [7]

/-- A halted state, as HALT leaves it. -/
def halted : State := { (boot [0] []) with pc := 1, status := .halted, response := .halt }

/-- A faulted state, as POP from an empty stack leaves it. -/
def faulted : State :=
  { (boot [3, 32768] []) with status := .faulted, faultCause := .stackUnderflow, faultInfo := 3,
                              response := .fault .stackUnderflow 3 }

theorem sound_ready : Sound (boot [21] []) :=
  ⟨by decide, by decide, by decide, by decide, fun _ => rfl, fun _ h => (by cases h),
    ⟨by decide, fun _ _ h => by cases h⟩⟩

theorem sound_halted : Sound halted :=
  ⟨by decide, by decide, by decide, by decide, fun _ => rfl, fun _ h => (by cases h), rfl⟩

theorem sound_faulted : Sound faulted :=
  ⟨by decide, by decide, by decide, by decide, fun h => (by cases h), fun _ h => (by cases h), rfl⟩

theorem sound_awaiting : Sound awaiting :=
  ⟨by decide, by decide, by decide, by decide, fun _ => rfl, fun _ h => (by cases h), .inl rfl⟩

theorem witness_LoadBuildsTheResetState :
    0 < min (imageWords [21, 0]).length 32768 ∧ min (imageWords [21, 0]).length 32768 ≤ 1 := by decide
theorem witness_ImageBytesPairLowByteFirst : 1 < ([9, 0, 0, 128] : List Byte).length / 2 := by decide
theorem witness_ReencodingAnEvenImageGivesItBack : ([9, 0, 0, 128] : List Byte).length % 2 = 0 := by decide
theorem witness_DecodingAnEncodedInstructionGivesItBack :
    (Instr.add (.reg 7) (.bad 32776) (.lit 32767)).wf = true ∧ (Instr.unknown 22).wf = true := by decide
theorem witness_DecodedInstructionsEncodeToTheirWords :
    decode [20, 65535, 1] = .ok (.inp (.bad 65535), [1]) := by decide
theorem witness_LengthIsFixedByTheOpcodeWord :
    operandCount 9 ≤ ([1, 2, 3] : List Word).length ∧ (boot [] [(32775, 9)]).M (32775 : Word).toNat = 9 := by decide
theorem witness_StepRunsTheDecodedInstruction :
    (boot [9, 32768, 32769, 4] []).status = .ready ∧ wordsAt (boot [9, 32768, 32769, 4] []) 0 [9, 32768, 32769, 4] ∧
      decode [9, 32768, 32769, 4] = .ok (.add (.reg 0) (.reg 1) (.lit 4), []) := by
  unfold wordsAt
  decide
/-- The last cell of the array holds an instruction of one word. -/
theorem witness_StepRunsTheDecodedInstruction_last_cell :
    wordsAt ((boot [] [(32775, 21)]).setPc 32775) 32775 [21] ∧ decode [21] = .ok (.nop, []) := by
  unfold wordsAt
  decide
theorem witness_FetchOutsideTheArrayFaults :
    ((boot [] []).setPc 32776).status = .ready ∧ 32775 < ((boot [] []).setPc 32776).pc.toNat ∧
      ((boot [] [(32775, 2)]).setPc 32775).pc.toNat ≤ 32775 ∧
      32775 < (32775 : Word).toNat + operandCount ((boot [] [(32775, 2)]).M 32775) := by decide
theorem witness_StepOutsideReadyOnlyAnswers :
    awaiting.status = .awaitInput ∧ halted.status = .halted ∧ faulted.status = .faulted := by decide
theorem witness_OutcomeFixesTheStatusFields :
    (boot [20, 50] []).status = .ready ∧ ∃ t, step (boot [20, 50] []) = .next t ∧ t.response = .awaitInput 50 :=
  ⟨by decide, seen_next (by decide)⟩
theorem witness_FaultingStepChangesNothingElse :
    (boot [3, 32768] []).status = .ready ∧ ∃ t, step (boot [3, 32768] []) = .next t ∧ t.status = .faulted :=
  ⟨by decide, seen_next (by decide)⟩
theorem witness_StepChangesAtMostOneCellAndOneEntry :
    fetchInstr ((boot [3, 5] []).setStack [7]) = .ok (.pop (.cell 5)) ∧
      storedAt (.pop (.cell 5)) ((boot [3, 5] []).setStack [7]) = some 5 ∧
      ∃ t, step ((boot [3, 5] []).setStack [7]) = .next t ∧ (t.stack, t.M 5) = ([], 7) :=
  ⟨by decide, by decide, seen_next (by decide)⟩
/-- A state in which nothing is fetched, a status that fetches nothing, and an instruction that leaves the stack. -/
theorem witness_StepChangesAtMostOneCellAndOneEntry_no_instruction :
    fetchInstr ((boot [] []).setPc 32776) = .error 32776 ∧ halted.status ≠ .ready ∧
      fetchInstr (boot [1, 5, 7] []) = .ok (.set (.cell 5) (.lit 7)) ∧
      movesStack (.set (.cell 5) (.lit 7)) = false ∧ storedAt (.set (.cell 5) (.lit 7)) (boot [1, 5, 7] []) ≠ some 6 ∧
      ∃ t, step (boot [1, 5, 7] []) = .next t ∧ (t.M 5, t.M 6) = (7, 0) :=
  ⟨by decide, by decide, by decide, by decide, by decide, seen_next (by decide)⟩
theorem witness_HiddenStateDoesNotInfluenceAStep :
    sameProgramView (boot [21] []) { (boot [21] []) with wordCount := 9, faultInfo := 5, pendingAddr := 3 } ∧
      ∃ t, step (boot [21] []) = .next t ∧ t.pc = 1 :=
  ⟨⟨rfl, rfl, rfl, rfl⟩, seen_next (by decide)⟩
theorem witness_StepKeepsTheInvariant : Sound (boot [21] []) ∧ ∃ t, step (boot [21] []) = .next t ∧ t.pc = 1 :=
  ⟨sound_ready, seen_next (by decide)⟩
theorem witness_EveryRequestKeepsTheInvariant :
    Sound awaiting ∧ serve (.supplyInput 32775 1) awaiting =
      .reply .ok { awaiting.setM 32775 1 with status := .ready } := ⟨sound_awaiting, by decide⟩
theorem witness_EveryRunFromLoadSatisfiesTheInvariant :
    serveAll [.readPc, .load [21, 0]] (load oneEntry []) = some (load oneEntry [21, 0]) := by decide
theorem witness_EndedRunStaysAsItIs : Sound halted ∧ Ended halted ∧ Sound faulted ∧ Ended faulted :=
  ⟨sound_halted, .inl rfl, sound_faulted, .inr rfl⟩
theorem witness_OnlyLoadLeavesAnEndedStatus :
    Ended faulted ∧ (∀ bytes, Request.writePc 5 ≠ .load bytes) ∧
      serve (.writePc 5) faulted = .reply .noPort faulted :=
  ⟨.inr rfl, fun _ h => (by cases h), by decide⟩
theorem witness_WordCountAndParametersAreFixed :
    serve .readPc halted = .reply (.word 1) halted ∧ ∀ bytes, Request.readPc ≠ .load bytes :=
  ⟨by decide, fun _ h => by cases h⟩
theorem witness_SupplyInputWritesTheIndexItIsGiven :
    halted.status ≠ .awaitInput ∧ awaiting.status = .awaitInput ∧ 32775 < (32776 : Word).toNat ∧
      (32775 : Word).toNat ≤ 32775 := by decide
theorem witness_DebugWritesTouchOnePlace :
    { ops with params := { Params.standard with debugWrite := true } }.params.debugWrite = true ∧
      ops.params.debugWrite = false ∧ 0 < ops.stack.length ∧ ops.stack.length ≤ 1 ∧ 8 ≤ 8 ∧
      32767 < 32768 ∧ 32768 ≤ 32768 := by decide
theorem witness_LengthQueryReadsOnlyTheOpcodeWord :
    32775 < (32776 : Word).toNat ∧ (32775 : Word).toNat ≤ 32775 := by decide
theorem witness_OperandsRenderAsRegistersOrNumerals :
    32768 ≤ (32768 : Word).toNat ∧ (32775 : Word).toNat ≤ 32775 ∧ (32767 : Word).toNat < 32768 ∧
      32775 < (32776 : Word).toNat ∧ (32776 : Word) ≠ 0 := by decide
theorem witness_DisassemblyIsMnemonicAndOperands :
    32775 < (32776 : Word).toNat ∧ 21 < ((boot [22] []).M (0 : Word).toNat).toNat ∧
      ((boot [21] []).M (0 : Word).toNat).toNat ≤ 21 := by decide
theorem oneEntry_allowed : paramsAllowed oneEntry := by
  refine ⟨by decide, by decide, by decide, fun op => ?_⟩
  unfold mnemonicOf
  split <;> decide
theorem witness_DisassembledOperandCountMatchesLength :
    paramsAllowed { (boot [1, 2, 3] []) with params := oneEntry }.params ∧
      instructionLength { (boot [1, 2, 3] []) with params := oneEntry } 0 = some 3 ∧
      disassemble { (boot [1, 2, 3] []) with params := oneEntry } 0 = some ['S', 'E', 'T', ' ', '2', ' ', '3'] :=
  ⟨oneEntry_allowed, by decide, by decide⟩
theorem witness_StepFetchesExactlyTheQueriedLength :
    fetchInstr (boot [7, 32768, 100] []) = .ok (.jt (.reg 0) 100) := by decide
theorem witness_UnknownOpcodesHalt : 22 ≤ (22 : Word).toNat ∧ 22 ≤ (65535 : Word).toNat := by decide
theorem witness_JmpSetsThePcToItsValue :
    Src.bad 32776 = .bad 32776 ∧ srcValue (.reg 4) ops = .ok 32776 ∧ srcValue (.lit 7) ops = .ok 7 := by decide
theorem witness_JtJumpsToTheRawWordIfNonzero :
    srcValue (.reg 1) ops = .ok 40000 ∧ (40000 : Word) ≠ 0 ∧ srcValue (.reg 2) ops = .ok 0 := by decide
theorem witness_JfJumpsToTheRawWordIfZero :
    srcValue (.lit 0) ops = .ok 0 ∧ srcValue (.reg 5) ops = .ok 1 ∧ (1 : Word) ≠ 0 := by decide
theorem witness_CallPushesTheReturnIndexAndJumps :
    srcValue (.reg 1) ops = .ok 40000 ∧ ops.params.stackCapacity ≠ some ops.stack.length ∧
      { ops with params := oneEntry }.params.stackCapacity = some ops.stack.length := by decide
theorem witness_RetPopsThePc : (boot [] []).stack = [] ∧ ops.stack = [7] := by decide
theorem witness_SetStoresItsValue :
    dstIndex (.cell 100) = .ok 100 ∧ srcValue (.reg 1) ops = .ok 40000 := by decide
theorem witness_PushPutsItsValueOnTop :
    srcValue (.lit 3) ops = .ok 3 ∧ ops.params.stackCapacity ≠ some ops.stack.length ∧
      { ops with params := oneEntry }.params.stackCapacity = some ops.stack.length := by decide
theorem witness_PopStoresTheTop :
    dstIndex (.reg 2) = .ok 32770 ∧ (boot [] []).stack = [] ∧ ops.stack = [7] := by decide
theorem witness_RmemCopiesTheCellItsValueNames :
    dstIndex (.reg 0) = .ok 32768 ∧ srcValue (.reg 4) ops = .ok 32776 ∧ 32775 < (32776 : Word).toNat ∧
      srcValue (.reg 3) ops = .ok 32775 ∧ (32775 : Word).toNat ≤ 32775 := by decide
theorem witness_WmemStoresAtTheCellItsValueNames :
    srcValue (.reg 4) ops = .ok 32776 ∧ 32775 < (32776 : Word).toNat ∧ srcValue (.reg 3) ops = .ok 32775 ∧
      (32775 : Word).toNat ≤ 32775 ∧ srcValue (.lit 5) ops = .ok 5 := by decide
theorem witness_EqStoresWhetherEqual :
    dstIndex (.reg 0) = .ok 32768 ∧ srcValue (.reg 5) ops = .ok 1 ∧ srcValue (.lit 1) ops = .ok 1 := by decide
theorem witness_GtStoresWhetherGreater :
    dstIndex (.cell 9) = .ok 9 ∧ srcValue (.reg 1) ops = .ok 40000 ∧ srcValue (.lit 32767) ops = .ok 32767 := by decide
theorem witness_AddStoresTheSumModulo32768 :
    dstIndex (.reg 7) = .ok 32775 ∧ srcValue (.lit 32767) ops = .ok 32767 ∧ srcValue (.lit 1) ops = .ok 1 := by decide
theorem witness_MulStoresTheProductModulo32768 :
    dstIndex (.cell 0) = .ok 0 ∧ srcValue (.lit 300) ops = .ok 300 ∧ srcValue (.lit 200) ops = .ok 200 := by decide
theorem witness_ModStoresTheRemainder :
    dstIndex (.reg 0) = .ok 32768 ∧ srcValue (.lit 7) ops = .ok 7 ∧ srcValue (.reg 5) ops = .ok 1 ∧
      (1 : Word).toNat ≠ 0 ∧ srcValue (.reg 2) ops = .ok 0 := by decide
theorem witness_AndStoresTheBitwiseAnd :
    dstIndex (.reg 0) = .ok 32768 ∧ srcValue (.reg 1) ops = .ok 40000 ∧ srcValue (.reg 3) ops = .ok 32775 := by decide
theorem witness_OrStoresTheBitwiseOr :
    dstIndex (.cell 32767) = .ok 32767 ∧ srcValue (.reg 1) ops = .ok 40000 ∧ srcValue (.lit 1) ops = .ok 1 := by decide
theorem witness_NotStoresTheFifteenBitComplement :
    dstIndex (.reg 0) = .ok 32768 ∧ srcValue (.lit 32767) ops = .ok 32767 ∧ (32767 : Word).toNat ≤ 32767 ∧
      srcValue (.reg 3) ops = .ok 32775 ∧ 32768 ≤ (32775 : Word).toNat ∧ ops.params.notHigh = .mask15 ∧
      { ops with params := { Params.standard with notHigh := .wrap16 } }.params.notHigh = .wrap16 ∧
      { ops with params := { Params.standard with notHigh := .refuse } }.params.notHigh = .refuse := by decide
theorem witness_AluFaultsComeInOperandOrder :
    dstIndex (.reg 0) = .ok 32768 ∧ srcValue (.reg 1) ops = .ok 40000 ∧
      ∃ t, exec (.mod (.reg 0) (.lit 7) (.reg 2)) ops = .next t ∧ t.status = .faulted :=
  ⟨by decide, by decide, seen_next (by decide)⟩
theorem witness_NumbersGiveNumbersUnderEveryNotHigh :
    Instr.not (.reg 0) (.lit 32767) ∈ [Instr.eq (.reg 0) (.lit 32767) (.lit 0), .not (.reg 0) (.lit 32767)] ∧
      dstIndex (.reg 0) = .ok 32768 ∧ srcValue (.lit 32767) ops = .ok 32767 ∧ srcValue (.lit 0) ops = .ok 0 ∧
      ∃ t, exec (.not (.reg 0) (.lit 32767)) ops = .next t ∧ t.status = .ready :=
  ⟨by decide, by decide, by decide, by decide, seen_next (by decide)⟩
theorem witness_OutAnswersItsCharacter :
    srcValue (.reg 1) ops = .ok 40000 ∧ charValid ops.params 40000 = true ∧
      srcValue (.reg 6) (boot [] [(32774, 0xD800)]) = .ok 0xD800 ∧ charValid ops.params 0xD800 = false ∧
      charValid ops.params 0xDFFF = false ∧ charValid ops.params 0xD7FF = true ∧
      charValid ops.params 0xE000 = true := by decide
theorem witness_InAwaitsAWordForItsDestination :
    dstIndex (.reg 7) = .ok 32775 ∧ dstIndex (.cell 0) = .ok 0 := by decide
theorem witness_InstructionsLeaveOtherCellsAlone :
    storedAt (.wmem (.reg 3) (.lit 5)) ops = some 32775 ∧
      ∃ t, exec (.wmem (.reg 3) (.lit 5)) ops = .next t ∧ t.M 32775 = 5 :=
  ⟨by decide, seen_next (by decide)⟩
theorem witness_InstructionsLeaveOtherStateAlone :
    movesStack (.set (.reg 0) (.lit 5)) = false ∧ ∃ t, exec (.set (.reg 0) (.lit 5)) ops = .next t ∧
      t.status = .ready :=
  ⟨by decide, seen_next (by decide)⟩

end Sys2Proof.Machine.Tests
end

section
/-! PROOFS. What LOAD leaves: the cells and the word count of the loaded state, and the reset state of 10_state R46. -/

namespace Sys2Proof.Machine

/-- Only the first 32768 words of the image reach memory (49_host_interface R253). -/
theorem load_M (p : Params) (bytes : List Byte) (i : Nat) :
    (load p bytes).M i = ((imageWords bytes).take 32768).getD i 0 := by
  have cells := Memory.read_ofWords 0 ((imageWords bytes).take 32768) i
  rwa [Nat.zero_add] at cells

theorem load_M_of_lt (p : Params) (bytes : List Byte) {i : Nat} (h : i < 32768) :
    (load p bytes).M i = (imageWords bytes).getD i 0 := by
  rw [load_M, List.getD_eq_getElem?_getD, List.getElem?_take_of_lt h, ← List.getD_eq_getElem?_getD]

theorem load_M_of_ge (p : Params) (bytes : List Byte) {i : Nat}
    (h : min (imageWords bytes).length 32768 ≤ i) : (load p bytes).M i = 0 := by
  rw [load_M]
  exact List.getD_eq_default _ _ (by rw [List.length_take]; omega)

/-- The registers lie above every cell an image can reach. -/
@[simp] theorem load_reg (p : Params) (bytes : List Byte) (r : Fin 8) : (load p bytes).reg r = 0 :=
  load_M_of_ge p bytes (by unfold regIndex; omega)

theorem load_wordCount_toNat (p : Params) (bytes : List Byte) :
    (load p bytes).wordCount.toNat = min (imageWords bytes).length 32768 := by
  have count : (load p bytes).wordCount = BitVec.ofNat 16 ((imageWords bytes).take 32768).length := rfl
  rw [count, BitVec.toNat_ofNat, List.length_take]
  omega

/-- Settles O3: the state is `load`'s own; its cells and word count are the lemmas above, its other fields constants. -/
theorem loadBuildsTheResetState : Obligations.LoadBuildsTheResetState := by
  unfold Obligations.LoadBuildsTheResetState
  intro s bytes
  have cells : ∀ i, i < min (imageWords bytes).length 32768 →
      (load s.params bytes).M i = (imageWords bytes).getD i 0 :=
    fun i hi => load_M_of_lt s.params bytes (by omega)
  exact ⟨load s.params bytes, rfl, load_wordCount_toNat s.params bytes, cells,
    fun _ hi => load_M_of_ge s.params bytes hi, load_reg s.params bytes, rfl, rfl, rfl, rfl, rfl, rfl⟩

end Sys2Proof.Machine
end

section
/-! PROOFS. The length of an instruction (30_encoding R102): the operand-count table, and the words of a decoded
instruction. -/

namespace Sys2Proof

/-- The rows of R102's table, by operand count. -/
theorem operandCount_eq_table (op : Word) :
    operandCount op =
      if op.toNat ∈ [2, 3, 6, 17, 19, 20] then 1
      else if op.toNat ∈ [1, 7, 8, 14, 15, 16] then 2
      else if op.toNat ∈ [4, 5, 9, 10, 11, 12, 13] then 3
      else 0 := by
  unfold operandCount
  split
  case h_20 =>
    simp only [imp_false] at *
    simp [*]
  all_goals
    rename_i code
    rw [code]
    rfl

/-- What an opcode word and its operand words make is well formed (R92, R97): the fallback is reached only by an
opcode word above 21. -/
@[simp] theorem instrOfWords_wf (op a b c : Word) : (instrOfWords op a b c).wf = true := by
  unfold instrOfWords
  split
  case h_23 =>
    simp only [imp_false] at *
    simp only [Instr.wf, decide_eq_true_eq]
    omega
  all_goals simp [Instr.wf]

/-- `Laws.EncodedLength` holds of every constructor; only the fallback needs its opcode word to be 22 or above. -/
theorem encode_length {i : Instr} (h : i.wf = true) : (encode i).length = 1 + operandCount (opcodeOf i) := by
  cases i with
  | unknown op => exact Laws.EncodedLength.unknown op h
  | _ => rfl

theorem encode_instrOf_length (op : Word) (ws : List Word) :
    (encode (instrOf op ws)).length = 1 + operandCount op := by
  unfold instrOf
  rw [encode_length (instrOfWords_wf ..), opcodeOf_instrOfWords]

/-- With all its operand words there, an opcode word decodes whatever they hold (R99, R100). -/
theorem decode_of_operandCount_le {op : Word} {ws : List Word} (h : operandCount op ≤ ws.length) :
    decode (op :: ws) = .ok (instrOf op ws, ws.drop (operandCount op)) :=
  if_neg (Nat.not_lt.mpr h)

end Sys2Proof

namespace Sys2Proof.Machine

theorem instructionLength_of_le (s : State) {addr : Word} (h : addr.toNat ≤ 32775) :
    instructionLength s addr = some (1 + operandCount (s.M addr.toNat)) :=
  if_neg (Nat.not_lt.mpr h)

/-- Settles O10: the table, the decoder on enough words, and the length decoder inside the array. -/
theorem lengthIsFixedByTheOpcodeWord : Obligations.LengthIsFixedByTheOpcodeWord := by
  unfold Obligations.LengthIsFixedByTheOpcodeWord
  intro op
  refine ⟨operandCount_eq_table op, ?decoder, ?lengthDecoder⟩
  case decoder =>
    intro ws enough
    exact ⟨instrOf op ws, decode_of_operandCount_le enough, encode_instrOf_length op ws⟩
  case lengthDecoder =>
    intro s addr inside cell
    rw [instructionLength_of_le s inside, cell]

end Sys2Proof.Machine
end

section
/-! PROOFS. Operand words resolved by their mode (40_engine_cycle R124 to R126). -/

namespace Sys2Proof.Machine

/-- Value mode on every word (R124); a selector's content is not resolved again. -/
theorem srcValue_srcOfWord (w : Word) (s : State) :
    srcValue (srcOfWord w) s =
      if w.toNat ≤ 32767 then .ok w
      else if w.toNat ≤ 32775 then .ok (s.M w.toNat)
      else .error ⟨.invalidOperand, w⟩ := by
  by_cases literal : w.toNat < 32768
  · rw [if_pos (by omega), srcOfWord_literal literal]
    exact congrArg Except.ok (literal_word literal)
  · rw [if_neg (by omega)]
    by_cases selector : w.toNat < 32776
    · rw [if_pos (by omega), srcOfWord_selector literal selector]
      exact congrArg (fun i => Except.ok (s.M i)) (selector_index literal selector)
    · rw [if_neg (by omega), srcOfWord_invalid selector]
      rfl

/-- Address mode on every word (R125): general memory and registers are one index range. -/
theorem dstIndex_dstOfWord (w : Word) :
    dstIndex (dstOfWord w) =
      if w.toNat ≤ 32775 then .ok w.toNat else .error ⟨.addressOutOfRange, w⟩ := by
  by_cases inArray : w.toNat < 32776
  · rw [if_pos (by omega)]
    by_cases cell : w.toNat < 32768
    · rw [dstOfWord_cell cell]
      exact congrArg Except.ok (Nat.mod_eq_of_lt cell)
    · rw [dstOfWord_register cell inArray]
      exact congrArg Except.ok (selector_index cell inArray)
  · rw [if_neg (by omega), dstOfWord_invalid inArray]
    rfl

/-- Settles O6: one lemma per resolving mode; the raw target of JT and JF (R126) is the decoder's own word. -/
theorem operandWordsResolveByTheirMode : Obligations.OperandWordsResolveByTheirMode := by
  unfold Obligations.OperandWordsResolveByTheirMode
  intro w s
  exact ⟨srcValue_srcOfWord w s, dstIndex_dstOfWord w, fun _ => ⟨rfl, rfl⟩⟩

end Sys2Proof.Machine
end

section
/-! PROOFS. What each outcome of a READY step leaves in the status fields (40_engine_cycle R129). -/

namespace Sys2Proof.Machine

/-- A READY step has the effect of the instruction it fetched, or takes the fault of a fetch. -/
theorem step_effect_of_ready {s t : State} (ready : s.status = .ready) (h : step s = .next t) :
    (∃ i, fetchInstr s = .ok i ∧ Effect i s t) ∨
      ∃ p, fetchInstr s = .error p ∧ faultedWith s t .fetchOutOfRange p := by
  rw [step_ready ready] at h
  split at h
  case h_1 i fetched => exact .inl ⟨i, fetched, exec_effect h⟩
  case h_2 p failed => exact .inr ⟨p, failed, raise_next h⟩

/-- An answer given where the records stand as before sets the status and nothing else of the status fields. -/
theorem answer_statusFields {s u t : State} {st : Status} {r : Response} (after : t = u.answer st r)
    (same : sameRecords s u) : t.response = r ∧ t.status = st ∧ sameRecords s t := by
  subst after
  exact ⟨rfl, rfl, same⟩

/-- The FAULT row of R129's table. -/
theorem faultedWith_statusFields {s t : State} {cause : FaultCause} {info : Word}
    (taken : faultedWith s t cause info) :
    t.response = .fault cause info ∧ t.status = .faulted ∧ t.faultCause = cause ∧ t.faultInfo = info ∧
      t.pendingAddr = s.pendingAddr := by
  obtain ⟨status, recordedCause, recordedInfo, response, -, -, -, pending, -⟩ := taken
  exact ⟨response, status, recordedCause, recordedInfo, pending⟩

/-- Settles O14: every effect of an instruction falls under one row of the table, a fetch fault under FAULT. -/
theorem outcomeFixesTheStatusFields : Obligations.OutcomeFixesTheStatusFields := by
  unfold Obligations.OutcomeFixesTheStatusFields
  intro s t ready h
  obtain ⟨i, -, effect⟩ | ⟨p, -, taken⟩ := step_effect_of_ready ready h
  · cases effect with
    | store d v p _ _ after => exact .inl (answer_statusFields after ⟨rfl, rfl, rfl⟩)
    | pop a d v p st _ _ _ after => exact .inl (answer_statusFields after ⟨rfl, rfl, rfl⟩)
    | move p after => exact .inl (answer_statusFields after ⟨rfl, rfl, rfl⟩)
    | push v p _ _ after => exact .inl (answer_statusFields after ⟨rfl, rfl, rfl⟩)
    | ret v st _ _ after => exact .inl (answer_statusFields after ⟨rfl, rfl, rfl⟩)
    | output c p after => exact .inr (.inl ⟨c, answer_statusFields after ⟨rfl, rfl, rfl⟩⟩)
    | await d p inArray after =>
      have index : (BitVec.ofNat 16 d).toNat = d := Nat.mod_eq_of_lt (by omega)
      subst after
      exact .inr (.inr (.inl ⟨BitVec.ofNat 16 d, rfl, rfl, rfl, by omega, rfl, rfl⟩))
    | halt p after => exact .inr (.inr (.inr (.inl (answer_statusFields after ⟨rfl, rfl, rfl⟩))))
    | fault cause info named taken =>
      exact .inr (.inr (.inr (.inr ⟨cause, info, named, faultedWith_statusFields taken⟩)))
  · exact .inr (.inr (.inr (.inr ⟨.fetchOutOfRange, p, by simp, faultedWith_statusFields taken⟩)))

end Sys2Proof.Machine
end

section
/-! PROOFS. The control instructions (41_control R150 to R158): the shapes of `Safety` from what a meaning answers,
one equation per path of a meaning, and the eight instructions. -/

namespace Sys2Proof.Machine

/-! ### From what a meaning answers to what it leaves -/

theorem takesFault_of_raise {i : Instr} {s : State} {cause : FaultCause} {info : Word}
    (run : exec i s = raise ⟨cause, info⟩ s) : takesFault i s cause info := by
  unfold takesFault
  rw [run]
  exact raise_takes ⟨cause, info⟩ s

/-- An instruction that resolves a value-mode operand first faults with the operand's word if that is invalid
(R124). -/
theorem takesFault_of_bad_first {i : Instr} {a : Src} {s : State} {k : Word → Result}
    (meaning : exec i s = withSrc a s k) : ∀ w, a = .bad w → takesFault i s .invalidOperand w := by
  rintro w rfl
  exact takesFault_of_raise meaning

/-- A meaning that moves the pc alone is the case `st = s.stack`. -/
theorem completesAt_of_emitContinue {i : Instr} {s : State} {st : List Word} {target : Word}
    (run : exec i s = emitContinue ((s.setStack st).setPc target)) : completesAt i s target st :=
  ⟨_, run, ⟨rfl, rfl, ⟨rfl, rfl, rfl⟩, rfl, rfl⟩, fun _ => rfl, rfl, rfl⟩

/-- A pc outside the array is found by the fetch of the opcode word (R122). -/
theorem step_of_pc_out {t : State} (ready : t.status = .ready) (out : 32775 < t.pc.toNat) :
    ∃ u, step t = .next u ∧ faultedWith t u .fetchOutOfRange t.pc := by
  have failed : fetchInstr t = .error t.pc := by simp only [fetchInstr, fetchWord_out out]
  rw [step_ready ready, failed]
  exact raise_takes (fetchFault t.pc) t

/-- Every completion is a transfer in the sense of R158: the step after it starts READY at its target. -/
theorem transfersTo_of_completesAt {i : Instr} {s : State} {target : Word} {st : List Word}
    (done : completesAt i s target st) : transfersTo i s target st := by
  obtain ⟨t, run, went, cells, stack, rfl⟩ := done
  exact ⟨t, run, went, cells, stack, rfl, step_of_pc_out went.1⟩

theorem transfersTo_of_emitContinue {i : Instr} {s : State} {st : List Word} {target : Word}
    (run : exec i s = emitContinue ((s.setStack st).setPc target)) : transfersTo i s target st :=
  transfersTo_of_completesAt (completesAt_of_emitContinue run)

/-- Halting past one word leaves all but pc, status and answer, and is a fixed point of STEP (R120). -/
theorem halts_of_emitHalt {i : Instr} {s : State} (run : exec i s = emitHalt (s.setPc (s.past 1))) :
    halts i s :=
  ⟨_, run, rfl, rfl, ⟨rfl, rfl, rfl⟩, ⟨rfl, rfl⟩, fun _ => rfl, rfl, rfl, rfl⟩

/-! ### The paths of each meaning -/

@[simp] theorem wordTrue_zero : wordTrue 0 = false := rfl

theorem wordTrue_of_ne_zero {v : Word} (nonzero : v ≠ 0) : wordTrue v = true := decide_eq_true nonzero

theorem exec_jmp {a : Src} {s : State} {v : Word} (value : srcValue a s = .ok v) :
    exec (.jmp a) s = emitContinue (s.setPc v) := withSrc_ok value

theorem exec_jt {a : Src} {b : Word} {s : State} {v : Word} (value : srcValue a s = .ok v) :
    exec (.jt a b) s = emitContinue (s.setPc (if wordTrue v then b else s.past 3)) := withSrc_ok value

theorem exec_jf {a : Src} {b : Word} {s : State} {v : Word} (value : srcValue a s = .ok v) :
    exec (.jf a b) s = emitContinue (s.setPc (if wordTrue v then s.past 3 else b)) := withSrc_ok value

theorem exec_call {a : Src} {s : State} {v : Word} (value : srcValue a s = .ok v) :
    exec (.call a) s = pushAndContinue s (s.past 2) v := withSrc_ok value

/-- No opcode word above 21 is in the table (30_encoding R97), so it makes the fallback. -/
theorem instrOf_unknown {op : Word} (high : 22 ≤ op.toNat) (ws : List Word) : instrOf op ws = .unknown op := by
  unfold instrOf instrOfWords
  split
  case h_23 => rfl
  all_goals omega

theorem decode_unknown {op : Word} (high : 22 ≤ op.toNat) (rest : List Word) :
    decode (op :: rest) = .ok (.unknown op, rest) := by
  have noOperand : operandCount op = 0 := Laws.EncodedLength.operandCount_unknown high
  rw [decode_of_operandCount_le (by omega), instrOf_unknown high, noOperand, List.drop_zero]

/-! ### The instructions -/

/-- Settles O36: the operand's value is the new pc. -/
theorem jmpSetsThePcToItsValue : Obligations.JmpSetsThePcToItsValue := by
  unfold Obligations.JmpSetsThePcToItsValue
  intro a s
  exact ⟨rfl, takesFault_of_bad_first rfl, fun _ value => transfersTo_of_emitContinue (exec_jmp value)⟩

/-- Settles O37: the condition's value picks the raw word or the index after the instruction. -/
theorem jtJumpsToTheRawWordIfNonzero : Obligations.JtJumpsToTheRawWordIfNonzero := by
  unfold Obligations.JtJumpsToTheRawWordIfNonzero
  intro a b s
  refine ⟨rfl, takesFault_of_bad_first rfl, ?taken, ?notTaken⟩
  case taken =>
    intro v value nonzero
    apply transfersTo_of_emitContinue
    rw [exec_jt value, if_pos (wordTrue_of_ne_zero nonzero)]
    rfl
  case notTaken =>
    intro value
    apply completesAt_of_emitContinue
    rw [exec_jt value, wordTrue_zero]
    rfl

/-- Settles O38: as JT, with the two targets exchanged. -/
theorem jfJumpsToTheRawWordIfZero : Obligations.JfJumpsToTheRawWordIfZero := by
  unfold Obligations.JfJumpsToTheRawWordIfZero
  intro a b s
  refine ⟨rfl, takesFault_of_bad_first rfl, ?taken, ?notTaken⟩
  case taken =>
    intro value
    apply transfersTo_of_emitContinue
    rw [exec_jf value, wordTrue_zero]
    rfl
  case notTaken =>
    intro v value nonzero
    apply completesAt_of_emitContinue
    rw [exec_jf value, if_pos (wordTrue_of_ne_zero nonzero)]
    rfl

/-- Settles O39: the push of the return index faults exactly on a full stack, and completes at the operand's value
otherwise. -/
theorem callPushesTheReturnIndexAndJumps : Obligations.CallPushesTheReturnIndexAndJumps := by
  unfold Obligations.CallPushesTheReturnIndexAndJumps
  intro a s
  refine ⟨rfl, takesFault_of_bad_first rfl, fun v value => ⟨?full, ?room⟩⟩
  case full =>
    intro full
    apply takesFault_of_raise
    rw [exec_call value, pushAndContinue_full ((stackFull_iff s).mpr full)]
    rfl
  case room =>
    intro notFull
    have room : s.stackFull = false := Bool.eq_false_iff.mpr (mt (stackFull_iff s).mp notFull)
    apply transfersTo_of_emitContinue
    rw [exec_call value, pushAndContinue_room room]
    rfl

/-- Settles O40: the pop faults on an empty stack, and gives the new pc otherwise. -/
theorem retPopsThePc : Obligations.RetPopsThePc := by
  unfold Obligations.RetPopsThePc
  refine ⟨rfl, fun s => ⟨?empty, ?popped⟩⟩
  case empty =>
    intro empty
    exact takesFault_of_raise (withPop_nil empty)
  case popped =>
    intro v rest top
    exact transfersTo_of_emitContinue (withPop_cons top)

/-- Settles O33: HALT is `emitHalt` past its own word. -/
theorem haltStopsTheEngine : Obligations.HaltStopsTheEngine := by
  unfold Obligations.HaltStopsTheEngine
  exact ⟨rfl, fun _ => halts_of_emitHalt rfl⟩

/-- Settles O34: the decoder's fallback, and the same `emitHalt` as HALT's. -/
theorem unknownOpcodesHalt : Obligations.UnknownOpcodesHalt := by
  unfold Obligations.UnknownOpcodesHalt
  intro op high
  exact ⟨decode_unknown high, fun _ => halts_of_emitHalt rfl⟩

/-- Settles O35: NOP completes at the index after its word with the stack it found. -/
theorem nopOnlyAdvancesThePc : Obligations.NopOnlyAdvancesThePc := by
  unfold Obligations.NopOnlyAdvancesThePc
  exact ⟨rfl, fun _ => completesAt_of_emitContinue rfl⟩

end Sys2Proof.Machine
end

section
/-! PROOFS. The data movement and stack instructions (42_data_stack R170 to R174): the shapes of `Safety` for a
destination and a store, how each meaning goes on once its first operand resolves, and the five instructions. -/

namespace Sys2Proof.Machine

/-! ### From what a meaning answers to what it leaves -/

/-- An instruction that resolves an address-mode operand first faults with the operand's word if it names no cell
(R125). -/
theorem takesFault_of_bad_destination {i : Instr} {a : Dst} {s : State} {k : Nat → Result}
    (meaning : exec i s = withDst a s k) : ∀ w, a = .bad w → takesFault i s .addressOutOfRange w := by
  rintro w rfl
  exact takesFault_of_raise meaning

/-- A meaning that stores and leaves the stack alone is the case `st = s.stack`. -/
theorem completesStoring_of_storeAndContinue {i : Instr} {s : State} {st : List Word} {n d : Nat} {v : Word}
    (run : exec i s = storeAndContinue (s.setStack st) n d v) : completesStoring i s n d v st := by
  unfold completesStoring
  rw [run]
  exact storeAndContinue_spec (s.setStack st) n d v

/-! ### Each meaning once its first operand is resolved -/

theorem exec_set {a : Dst} {b : Src} {s : State} {d : Nat} (index : dstIndex a = .ok d) :
    exec (.set a b) s = withSrc b s fun v => storeAndContinue s 3 d v := withDst_ok index

theorem exec_push {a : Src} {s : State} {v : Word} (value : srcValue a s = .ok v) :
    exec (.push a) s = pushAndContinue s v (s.past 2) := withSrc_ok value

theorem exec_pop {a : Dst} {s : State} {d : Nat} (index : dstIndex a = .ok d) :
    exec (.pop a) s = withPop 3 s fun v rest => storeAndContinue (s.setStack rest) 2 d v := withDst_ok index

theorem exec_rmem {a : Dst} {b : Src} {s : State} {d : Nat} (index : dstIndex a = .ok d) :
    exec (.rmem a b) s = withSrc b s fun v => withAddress v s fun i => storeAndContinue s 3 d (s.M i) :=
  withDst_ok index

theorem exec_wmem {a b : Src} {s : State} {d : Word} (address : srcValue a s = .ok d) :
    exec (.wmem a b) s = withSrc b s fun v => withAddress d s fun i => storeAndContinue s 3 i v :=
  withSrc_ok address

/-! ### The instructions -/

/-- Settles O41: the destination is resolved before the value, and the value is stored. -/
theorem setStoresItsValue : Obligations.SetStoresItsValue := by
  unfold Obligations.SetStoresItsValue
  intro a b s
  refine ⟨rfl, takesFault_of_bad_destination rfl, ?badValue, ?stored⟩
  case badValue =>
    intro d w index
    exact takesFault_of_bad_first (exec_set index) w
  case stored =>
    intro d v index value
    apply completesStoring_of_storeAndContinue
    rw [exec_set index, withSrc_ok value]
    rfl

/-- Settles O42: the push of the value faults exactly on a full stack, and completes past the two words otherwise. -/
theorem pushPutsItsValueOnTop : Obligations.PushPutsItsValueOnTop := by
  unfold Obligations.PushPutsItsValueOnTop
  intro a s
  refine ⟨rfl, takesFault_of_bad_first rfl, fun v value => ⟨?full, ?room⟩⟩
  case full =>
    intro full
    apply takesFault_of_raise
    rw [exec_push value, pushAndContinue_full ((stackFull_iff s).mpr full)]
  case room =>
    intro notFull
    have room : s.stackFull = false := Bool.eq_false_iff.mpr (mt (stackFull_iff s).mp notFull)
    apply completesAt_of_emitContinue
    rw [exec_push value, pushAndContinue_room room]
    rfl

/-- Settles O43: the destination is resolved before the stack is looked at, and the popped entry is stored. -/
theorem popStoresTheTop : Obligations.PopStoresTheTop := by
  unfold Obligations.PopStoresTheTop
  intro a s
  refine ⟨rfl, takesFault_of_bad_destination rfl, ?empty, ?popped⟩
  case empty =>
    intro d index empty
    apply takesFault_of_raise
    rw [exec_pop index, withPop_nil empty]
  case popped =>
    intro d v rest index top
    apply completesStoring_of_storeAndContinue
    rw [exec_pop index, withPop_cons top]

/-- Settles O44: the value is checked against the array after both operands resolve, and the cell it names is
stored. -/
theorem rmemCopiesTheCellItsValueNames : Obligations.RmemCopiesTheCellItsValueNames := by
  unfold Obligations.RmemCopiesTheCellItsValueNames
  intro a b s
  refine ⟨rfl, takesFault_of_bad_destination rfl, ?badValue, ?outside, ?copied⟩
  case badValue =>
    intro d w index
    exact takesFault_of_bad_first (exec_rmem index) w
  case outside =>
    intro d v index value outside
    apply takesFault_of_raise
    rw [exec_rmem index, withSrc_ok value, withAddress_out outside]
  case copied =>
    intro d v index value inside
    apply completesStoring_of_storeAndContinue
    rw [exec_rmem index, withSrc_ok value, withAddress_in inside]
    rfl

/-- Settles O45: the first value is checked against the array only after the second operand resolves, and the
second value is stored at the index it names. -/
theorem wmemStoresAtTheCellItsValueNames : Obligations.WmemStoresAtTheCellItsValueNames := by
  unfold Obligations.WmemStoresAtTheCellItsValueNames
  intro a b s
  refine ⟨rfl, takesFault_of_bad_first rfl, ?badValue, ?outside, ?stored⟩
  case badValue =>
    intro d w address
    exact takesFault_of_bad_first (exec_wmem address) w
  case outside =>
    intro d v address value outside
    apply takesFault_of_raise
    rw [exec_wmem address, withSrc_ok value, withAddress_out outside]
  case stored =>
    intro d v address value inside
    apply completesStoring_of_storeAndContinue
    rw [exec_wmem address, withSrc_ok value, withAddress_in inside]
    rfl

end Sys2Proof.Machine
end

section
/-! PROOFS. The ALU instructions (43_alu R190 to R199): how a meaning that resolves the operands a, b, c faults and
completes, the words the eight instructions compute, and the instructions. -/

namespace Sys2Proof.Machine

/-! ### Operands in the order a, b, c -/

/-- The order of R191: an F3AVV instruction resolves its destination, then its two values, and goes on as `k` says. -/
def resolvesInOrder (mk : Dst → Src → Src → Instr) (k : State → Nat → Word → Word → Result) : Prop :=
  ∀ (a : Dst) (b c : Src) (s : State),
    exec (mk a b c) s = withDst a s fun d => withSrc b s fun x => withSrc c s fun y => k s d x y

/-- An instruction that resolves a destination and then a value faults with the value's word if that is invalid. -/
theorem takesFault_of_bad_second {i : Instr} {a : Dst} {b : Src} {s : State} {k : Nat → Word → Result}
    (meaning : exec i s = withDst a s fun d => withSrc b s (k d)) :
    ∀ d w, dstIndex a = .ok d → b = .bad w → takesFault i s .invalidOperand w := by
  intro d w index
  exact takesFault_of_bad_first (meaning.trans (withDst_ok index)) w

/-- With its destination and its two values resolved, an F3AVV instruction is its continuation. -/
theorem exec_of_resolved {mk : Dst → Src → Src → Instr} {k : State → Nat → Word → Word → Result}
    (meaning : resolvesInOrder mk k) {a : Dst} {b c : Src} {s : State} {d : Nat} {x y : Word}
    (index : dstIndex a = .ok d) (first : srcValue b s = .ok x) (second : srcValue c s = .ok y) :
    exec (mk a b c) s = k s d x y := by
  rw [meaning, withDst_ok index, withSrc_ok first, withSrc_ok second]

/-- The three operand faults of R191, each once the operands before it resolve. -/
theorem faults_in_operand_order {mk : Dst → Src → Src → Instr} {k : State → Nat → Word → Word → Result}
    (meaning : resolvesInOrder mk k) (a : Dst) (b c : Src) (s : State) :
    (∀ w, a = .bad w → takesFault (mk a b c) s .addressOutOfRange w) ∧
    (∀ d w, dstIndex a = .ok d → b = .bad w → takesFault (mk a b c) s .invalidOperand w) ∧
    ∀ d x w, dstIndex a = .ok d → srcValue b s = .ok x → c = .bad w →
      takesFault (mk a b c) s .invalidOperand w := by
  have run := meaning a b c s
  refine ⟨takesFault_of_bad_destination run, takesFault_of_bad_second run, ?third⟩
  case third =>
    intro d x w index first
    rw [withDst_ok index, withSrc_ok first] at run
    exact takesFault_of_bad_first run w

/-- An F3AVV instruction that answers a next state has an invalid operand word, or its continuation answered it. -/
theorem next_of_resolvesInOrder {mk : Dst → Src → Src → Instr} {k : State → Nat → Word → Word → Result}
    (meaning : resolvesInOrder mk k) {a : Dst} {b c : Src} {s t : State} (h : exec (mk a b c) s = .next t) :
    (∃ w, a = .bad w ∨ b = .bad w ∨ c = .bad w) ∨
      ∃ d x y, srcValue c s = .ok y ∧ k s d x y = .next t := by
  rw [meaning] at h
  obtain ⟨d, -, h⟩ | ⟨w, bad, -⟩ := withDst_next h
  · obtain ⟨x, -, h⟩ | ⟨w, bad, -⟩ := withSrc_next h
    · obtain ⟨y, second, h⟩ | ⟨w, bad, -⟩ := withSrc_next h
      · exact .inr ⟨d, x, y, second, h⟩
      · exact .inl ⟨w, .inr (.inr bad)⟩
    · exact .inl ⟨w, .inr (.inl bad)⟩
  · exact .inl ⟨w, .inl bad⟩

theorem storeAndContinue_status_ne_faulted {s t : State} {n d : Nat} {v : Word}
    (h : storeAndContinue s n d v = .next t) : t.status ≠ .faulted := by
  rw [storeAndContinue_next h]
  simp

/-! ### Storing a result -/

/-- `storesResult` from the order of the operands and a continuation that stores f's word where f is defined. -/
theorem storesResult_of_resolvesInOrder {mk : Dst → Src → Src → Instr} {code : Word}
    {k : State → Nat → Word → Word → Result} {defined : Nat → Nat → Prop} {f : Nat → Nat → Nat}
    (words : ∀ a b c, encode (mk a b c) = [code, dstToWord a, srcToWord b, srcToWord c])
    (meaning : resolvesInOrder mk k)
    (stores : ∀ (s : State) (d : Nat) (x y : Word), defined x.toNat y.toNat →
      k s d x y = storeAndContinue s 4 d (BitVec.ofNat 16 (f x.toNat y.toNat))) :
    storesResult mk code defined f := by
  intro a b c s
  obtain ⟨badDestination, badFirst, badSecond⟩ := faults_in_operand_order meaning a b c s
  refine ⟨words a b c, badDestination, badFirst, badSecond, ?completes⟩
  case completes =>
    intro d x y index first second isDefined
    apply completesStoring_of_storeAndContinue
    rw [exec_of_resolved meaning index first second, stores s d x y isDefined]
    rfl

/-- An instruction whose meaning is `alu3` has a result for all values. -/
theorem storesResult_of_alu3 {mk : Dst → Src → Src → Instr} {code : Word} {g : Word → Word → Word}
    {f : Nat → Nat → Nat}
    (words : ∀ a b c, encode (mk a b c) = [code, dstToWord a, srcToWord b, srcToWord c])
    (meaning : ∀ a b c s, exec (mk a b c) s = alu3 g a b c s)
    (result : ∀ x y, g x y = BitVec.ofNat 16 (f x.toNat y.toNat)) :
    storesResult mk code (fun _ _ => True) f := by
  refine storesResult_of_resolvesInOrder words meaning ?stores
  case stores =>
    intro s d x y _
    rw [result]

/-! ### The words the instructions compute, as numbers -/

theorem truthWord_eq_ofNat (p : Prop) [Decidable p] :
    truthWord (decide p) = BitVec.ofNat 16 (if p then 1 else 0) := by
  by_cases holds : p <;> simp [truthWord, holds]

theorem aluAnd_eq_ofNat (x y : Word) : aluAnd x y = BitVec.ofNat 16 (x.toNat &&& y.toNat) := by
  rw [← BitVec.toNat_and, BitVec.ofNat_toNat, BitVec.setWidth_eq, aluAnd]

theorem aluOr_eq_ofNat (x y : Word) : aluOr x y = BitVec.ofNat 16 (x.toNat ||| y.toNat) := by
  rw [← BitVec.toNat_or, BitVec.ofNat_toNat, BitVec.setWidth_eq, aluOr]

theorem aluNot_low (h : NotHigh) {x : Word} (low : x.toNat ≤ 32767) :
    aluNot h x = some (BitVec.ofNat 16 (32767 - x.toNat)) := if_pos low

/-- Clearing bit 15 of the 16-bit complement takes nothing away: a high operand's complement is below 32768. -/
theorem aluNot_mask15 {x : Word} (high : 32768 ≤ x.toNat) :
    aluNot .mask15 x = some (BitVec.ofNat 16 (65535 - x.toNat)) := by
  have masked : ~~~x &&& 0x7FFF = BitVec.ofNat 16 (65535 - x.toNat) := by
    apply BitVec.eq_of_toNat_eq
    have mask : (0x7FFF : Word).toNat = 2 ^ 15 - 1 := rfl
    rw [BitVec.toNat_and, mask, Nat.and_two_pow_sub_one_eq_mod, BitVec.toNat_not, BitVec.toNat_ofNat]
    omega
  unfold aluNot
  rw [if_neg (by omega), masked]

/-- Adding 32768 to a high operand wraps to the operand less 32768. -/
theorem aluNot_wrap16 {x : Word} (high : 32768 ≤ x.toNat) :
    aluNot .wrap16 x = some (BitVec.ofNat 16 (98303 - x.toNat)) := by
  have wrapped : ~~~(BitVec.ofNat 16 ((32768 + x.toNat) % 65536)) = BitVec.ofNat 16 (98303 - x.toNat) := by
    apply BitVec.eq_of_toNat_eq
    rw [BitVec.toNat_not, BitVec.toNat_ofNat, BitVec.toNat_ofNat]
    omega
  unfold aluNot
  rw [if_neg (by omega), wrapped]

theorem aluNot_refuse {x : Word} (high : 32768 ≤ x.toNat) : aluNot .refuse x = none :=
  if_neg (by omega)

/-! ### EQ, GT, ADD, MUL, AND, OR -/

/-- Settles O46: words are equal exactly if their numbers are. -/
theorem eqStoresWhetherEqual : Obligations.EqStoresWhetherEqual := by
  unfold Obligations.EqStoresWhetherEqual
  refine storesResult_of_alu3 (fun _ _ _ => rfl) (fun _ _ _ _ => rfl) ?result
  case result =>
    intro x y
    simp only [truthWord_eq_ofNat, BitVec.toNat_inj]

/-- Settles O47: GT compares the numbers themselves. -/
theorem gtStoresWhetherGreater : Obligations.GtStoresWhetherGreater := by
  unfold Obligations.GtStoresWhetherGreater
  exact storesResult_of_alu3 (fun _ _ _ => rfl) (fun _ _ _ _ => rfl) fun _ _ => truthWord_eq_ofNat _

/-- Settles O48: `aluAdd` is the reduced sum by definition. -/
theorem addStoresTheSumModulo32768 : Obligations.AddStoresTheSumModulo32768 := by
  unfold Obligations.AddStoresTheSumModulo32768
  exact storesResult_of_alu3 (fun _ _ _ => rfl) (g := aluAdd) (fun _ _ _ _ => rfl) fun _ _ => rfl

/-- Settles O49: `aluMul` is the reduced product by definition. -/
theorem mulStoresTheProductModulo32768 : Obligations.MulStoresTheProductModulo32768 := by
  unfold Obligations.MulStoresTheProductModulo32768
  exact storesResult_of_alu3 (fun _ _ _ => rfl) (g := aluMul) (fun _ _ _ _ => rfl) fun _ _ => rfl

/-- Settles O51: the bitwise AND of two words is that of their numbers. -/
theorem andStoresTheBitwiseAnd : Obligations.AndStoresTheBitwiseAnd := by
  unfold Obligations.AndStoresTheBitwiseAnd
  exact storesResult_of_alu3 (fun _ _ _ => rfl) (fun _ _ _ _ => rfl) aluAnd_eq_ofNat

/-- Settles O52: the bitwise OR of two words is that of their numbers. -/
theorem orStoresTheBitwiseOr : Obligations.OrStoresTheBitwiseOr := by
  unfold Obligations.OrStoresTheBitwiseOr
  exact storesResult_of_alu3 (fun _ _ _ => rfl) (fun _ _ _ _ => rfl) aluOr_eq_ofNat

/-! ### MOD -/

/-- MOD once its operands are resolved (R196). -/
def modOfValues (s : State) (d : Nat) (x y : Word) : Result :=
  if y = 0 then raise ⟨.divideByZero, x⟩ s else storeAndContinue s 4 d (aluMod x y)

theorem mod_resolvesInOrder : resolvesInOrder .mod modOfValues := fun _ _ _ _ => rfl

theorem modOfValues_zero (s : State) (d : Nat) (x : Word) : modOfValues s d x 0 = raise ⟨.divideByZero, x⟩ s :=
  if_pos rfl

theorem modOfValues_of_ne_zero (s : State) (d : Nat) (x : Word) {y : Word} (nonzero : y ≠ 0) :
    modOfValues s d x y = storeAndContinue s 4 d (aluMod x y) := if_neg nonzero

/-- The divisor is looked at only after all three operands resolve (60_exceptions R282). -/
theorem mod_zero_takesFault {a : Dst} {b c : Src} {s : State} {d : Nat} {x : Word} (index : dstIndex a = .ok d)
    (dividend : srcValue b s = .ok x) (divisor : srcValue c s = .ok 0) :
    takesFault (.mod a b c) s .divideByZero x := by
  apply takesFault_of_raise
  rw [exec_of_resolved mod_resolvesInOrder index dividend divisor, modOfValues_zero]

/-- Settles O50: a divisor whose number is not 0 stores the remainder, and the divisor 0 faults. -/
theorem modStoresTheRemainder : Obligations.ModStoresTheRemainder := by
  unfold Obligations.ModStoresTheRemainder
  refine ⟨storesResult_of_resolvesInOrder (fun _ _ _ => rfl) mod_resolvesInOrder ?stores,
    fun _ _ _ _ _ _ => mod_zero_takesFault⟩
  case stores =>
    intro s d x y defined
    have nonzero : y ≠ 0 := fun zero => defined (by rw [zero]; rfl)
    rw [modOfValues_of_ne_zero s d x nonzero, aluMod]

/-! ### NOT -/

/-- NOT once its value is resolved (R199). -/
def notOfValue (s : State) (d : Nat) (x : Word) : Result :=
  match aluNot s.params.notHigh x with
  | some r => storeAndContinue s 3 d r
  | none => .refused (.notHighRefused x)

theorem exec_not (a : Dst) (b : Src) (s : State) :
    exec (.not a b) s = withDst a s fun d => withSrc b s fun x => notOfValue s d x := rfl

theorem notOfValue_some {s : State} {x r : Word} (d : Nat) (complement : aluNot s.params.notHigh x = some r) :
    notOfValue s d x = storeAndContinue s 3 d r := by
  simp only [notOfValue, complement]

theorem notOfValue_none {s : State} {x : Word} (d : Nat) (refused : aluNot s.params.notHigh x = none) :
    notOfValue s d x = .refused (.notHighRefused x) := by
  simp only [notOfValue, refused]

theorem notOfValue_status_ne_faulted {s t : State} {d : Nat} {x : Word} (h : notOfValue s d x = .next t) :
    t.status ≠ .faulted := by
  cases complement : aluNot s.params.notHigh x with
  | some r =>
    rw [notOfValue_some d complement] at h
    exact storeAndContinue_status_ne_faulted h
  | none =>
    rw [notOfValue_none d complement] at h
    cases h

theorem exec_not_of_resolved {a : Dst} {b : Src} {s : State} {d : Nat} {x : Word} (index : dstIndex a = .ok d)
    (value : srcValue b s = .ok x) : exec (.not a b) s = notOfValue s d x := by
  rw [exec_not, withDst_ok index, withSrc_ok value]

/-- NOT completes with the word `aluNot` gives. -/
theorem not_completesStoring {a : Dst} {b : Src} {s : State} {d : Nat} {x r : Word} (index : dstIndex a = .ok d)
    (value : srcValue b s = .ok x) (complement : aluNot s.params.notHigh x = some r) :
    completesStoring (.not a b) s 3 d r s.stack := by
  apply completesStoring_of_storeAndContinue
  rw [exec_not_of_resolved index value, notOfValue_some d complement]
  rfl

/-- Settles O53: after the operand faults, one case for a low value and one for each setting of NOT_HIGH. -/
theorem notStoresTheFifteenBitComplement : Obligations.NotStoresTheFifteenBitComplement := by
  unfold Obligations.NotStoresTheFifteenBitComplement
  refine ⟨rfl, fun a b s => ⟨rfl, takesFault_of_bad_destination (exec_not a b s),
    takesFault_of_bad_second (exec_not a b s), fun d x index value => ⟨?low, ?mask15, ?wrap16, ?refuse⟩⟩⟩
  case low => exact fun low => not_completesStoring index value (aluNot_low _ low)
  case mask15 =>
    intro high setting
    exact not_completesStoring index value (setting ▸ aluNot_mask15 high)
  case wrap16 =>
    intro high setting
    exact not_completesStoring index value (setting ▸ aluNot_wrap16 high)
  case refuse =>
    intro high setting
    rw [exec_not_of_resolved index value]
    exact notOfValue_none d (setting ▸ aluNot_refuse high)

/-! ### The faults of them all -/

/-- Six of the seven F3AVV instructions of R191 always have a result; the seventh is MOD. -/
theorem alu3_or_mod_of_mem {mk : Dst → Src → Src → Instr}
    (member : mk ∈ [Instr.eq, Instr.gt, Instr.add, Instr.mul, Instr.mod, Instr.and, Instr.or]) :
    (∃ g, ∀ a b c s, exec (mk a b c) s = alu3 g a b c s) ∨ mk = .mod := by
  simp only [List.mem_cons, List.not_mem_nil, or_false] at member
  obtain rfl | rfl | rfl | rfl | rfl | rfl | rfl := member
  case inr.inr.inr.inr.inl => exact .inr rfl
  all_goals exact .inl ⟨_, fun _ _ _ _ => rfl⟩

/-- The seven resolve their operands in one order, and what they do after that faults for MOD by 0 alone. -/
theorem aluMeaning_of_mem {mk : Dst → Src → Src → Instr}
    (member : mk ∈ [Instr.eq, Instr.gt, Instr.add, Instr.mul, Instr.mod, Instr.and, Instr.or]) :
    ∃ k, resolvesInOrder mk k ∧ ∀ s d x y t, k s d x y = .next t → t.status = .faulted →
      mk = Instr.mod ∧ y = 0 := by
  obtain ⟨g, meaning⟩ | rfl := alu3_or_mod_of_mem member
  · exact ⟨_, meaning, fun _ _ _ _ _ h faulted => absurd faulted (storeAndContinue_status_ne_faulted h)⟩
  · refine ⟨modOfValues, mod_resolvesInOrder, fun s d x y t h faulted => ⟨rfl, ?zero⟩⟩
    case zero =>
      by_contra nonzero
      rw [modOfValues_of_ne_zero s d x nonzero] at h
      exact storeAndContinue_status_ne_faulted h faulted

theorem bad_operand_of_not_faults {a : Dst} {b : Src} {s t : State} (h : exec (.not a b) s = .next t)
    (faulted : t.status = .faulted) : ∃ w, a = .bad w ∨ b = .bad w := by
  rw [exec_not] at h
  obtain ⟨d, -, h⟩ | ⟨w, bad, -⟩ := withDst_next h
  · obtain ⟨x, -, h⟩ | ⟨w, bad, -⟩ := withSrc_next h
    · exact absurd faulted (notOfValue_status_ne_faulted h)
    · exact ⟨w, .inr bad⟩
  · exact ⟨w, .inl bad⟩

/-- Settles O54: the seven F3AVV instructions share their operand faults, and what they do after them faults for
MOD by 0 alone; NOT faults by its two operands. -/
theorem aluFaultsComeInOperandOrder : Obligations.AluFaultsComeInOperandOrder := by
  unfold Obligations.AluFaultsComeInOperandOrder
  refine ⟨?threeOperands, fun a b s => ⟨takesFault_of_bad_destination (exec_not a b s),
    takesFault_of_bad_second (exec_not a b s), fun _ => bad_operand_of_not_faults⟩⟩
  case threeOperands =>
    intro mk member a b c s
    obtain ⟨k, meaning, onlyModByZero⟩ := aluMeaning_of_mem member
    obtain ⟨badDestination, badFirst, badSecond⟩ := faults_in_operand_order meaning a b c s
    refine ⟨badDestination, badFirst, badSecond, fun _ _ => mod_zero_takesFault, ?onlyThese⟩
    case onlyThese =>
      intro t h faulted
      obtain bad | ⟨d, x, y, divisor, h⟩ := next_of_resolvesInOrder meaning h
      · exact .inl bad
      · obtain ⟨rfl, rfl⟩ := onlyModByZero s d x y t h faulted
        exact .inr ⟨rfl, divisor⟩

end Sys2Proof.Machine
end

section
/-! PROOFS. Character input and output (44_io R220, R221): how OUT and IN go on once their operand resolves, what
CHAR_VALID refuses by default, the answer to SUPPLY_INPUT of an awaited index, and the two instructions. -/

namespace Sys2Proof.Machine

/-! ### OUT -/

theorem exec_out {a : Src} {s : State} {c : Word} (value : srcValue a s = .ok c) :
    exec (.out a) s =
      if charValid s.params c then emitOutput c (s.setPc (s.past 2)) else raise ⟨.invalidCharacter, c⟩ s :=
  withSrc_ok value

theorem exec_out_valid {a : Src} {s : State} {c : Word} (value : srcValue a s = .ok c)
    (valid : charValid s.params c = true) : exec (.out a) s = emitOutput c (s.setPc (s.past 2)) :=
  (exec_out value).trans (if_pos valid)

theorem exec_out_refused {a : Src} {s : State} {c : Word} (value : srcValue a s = .ok c)
    (refused : charValid s.params c = false) : exec (.out a) s = raise ⟨.invalidCharacter, c⟩ s :=
  (exec_out value).trans (if_neg (Bool.eq_false_iff.mp refused))

/-- A code is valid exactly if it lies in none of the refused ranges (00_scope R8). -/
theorem charValid_iff (p : Params) (c : Word) :
    charValid p c = true ↔ ∀ r ∈ p.charInvalid, ¬ (r.1 ≤ c.toNat ∧ c.toNat ≤ r.2) := by
  simp only [charValid, List.all_eq_true, Bool.not_eq_true', Bool.and_eq_false_iff, decide_eq_false_iff_not,
    not_and_or]

/-- The default refuses one range, the surrogate codes (D8). -/
theorem charValid_standard_iff (c : Word) :
    charValid Params.standard c = true ↔ ¬ (0xD800 ≤ c.toNat ∧ c.toNat ≤ 0xDFFF) := by
  rw [charValid_iff, show Params.standard.charInvalid = [(0xD800, 0xDFFF)] from rfl, List.forall_mem_singleton]

/-- Settles O57: CHAR_VALID of the operand's value decides between OUTPUT and the fault. -/
theorem outAnswersItsCharacter : Obligations.OutAnswersItsCharacter := by
  unfold Obligations.OutAnswersItsCharacter
  refine ⟨fun a s => ⟨rfl, takesFault_of_bad_first rfl, fun c value => ⟨?refused, ?valid⟩⟩,
    charValid_standard_iff⟩
  case refused => exact fun refused => takesFault_of_raise (exec_out_refused value refused)
  case valid =>
    exact fun valid => ⟨_, exec_out_valid value valid, rfl, rfl, ⟨rfl, rfl, rfl⟩, ⟨rfl, rfl⟩, fun _ => rfl, rfl, rfl⟩

/-! ### IN -/

theorem exec_inp {a : Dst} {s : State} {d : Nat} (index : dstIndex a = .ok d) :
    exec (.inp a) s = emitAwaitInput (BitVec.ofNat 16 d) (s.setPc (s.past 2)) := withDst_ok index

/-- The index of a destination fits the word in which IN passes it to the host. -/
theorem toNat_ofNat_of_dstIndex {a : Dst} {d : Nat} (index : dstIndex a = .ok d) :
    (BitVec.ofNat 16 d).toNat = d := by
  have inArray : d < 32776 := dstIndex_lt index
  exact Nat.mod_eq_of_lt (by omega)

/-- SUPPLY_INPUT of a cell's index where input is awaited (49_host_interface R257). -/
theorem supplyInput_awaited {addr : Word} (v : Word) {s : State} (awaiting : s.status = .awaitInput)
    (inArray : addr.toNat ≤ 32775) :
    supplyInput addr v s = .reply .ok { s.setM addr.toNat v with status := .ready } := by
  unfold supplyInput
  rw [if_neg (not_not_intro awaiting), if_neg (by omega)]

/-- What an accepted SUPPLY_INPUT leaves: the word in the cell d that its index names, every other cell, READY, and
the pc. -/
theorem serve_supplyInput_awaited {addr : Word} {d : Nat} (v : Word) {s : State} (awaiting : s.status = .awaitInput)
    (named : addr.toNat = d) (inArray : d < 32776) :
    ∃ u, serve (.supplyInput addr v) s = .reply .ok u ∧ u.M d = v ∧ sameCellsBut d s u ∧ u.status = .ready ∧
      u.pc = s.pc := by
  subst named
  exact ⟨_, supplyInput_awaited v awaiting (by omega), State.M_setM_self s addr.toNat v,
    fun _ other => State.M_setM_ne s v other, rfl, rfl⟩

theorem step_of_awaitInput {s : State} (awaiting : s.status = .awaitInput) :
    step s = .next (s.respond (.rejected .awaitingInput)) := by
  simp only [step, awaiting, answerAwaiting]

/-- Settles O58: the word IN leaves in pending_addr is its destination's index, so what SUPPLY_INPUT does there it
does at the destination. -/
theorem inAwaitsAWordForItsDestination : Obligations.InAwaitsAWordForItsDestination := by
  unfold Obligations.InAwaitsAWordForItsDestination
  refine fun a s => ⟨rfl, takesFault_of_bad_destination rfl, ?awaits⟩
  case awaits =>
    intro d index
    have named : (BitVec.ofNat 16 d).toNat = d := toNat_ofNat_of_dstIndex index
    exact ⟨_, exec_inp index, rfl, rfl, named, rfl, rfl, ⟨rfl, rfl⟩, fun _ => rfl, rfl, rfl, step_of_awaitInput rfl,
      fun v => serve_supplyInput_awaited v rfl named (dstIndex_lt index)⟩

end Sys2Proof.Machine
end

section
/-! PROOFS. The introspection layer (48_introspection R230 to R236): the two queries as equations on the ports, an
operand word as text, and the operands of an instruction in order. -/

namespace Sys2Proof.Machine

/-! ### INSTRUCTION_LENGTH -/

theorem instructionLength_of_gt (s : State) {addr : Word} (h : 32775 < addr.toNat) :
    instructionLength s addr = none :=
  if_pos h

/-- Settles O28: a port's answer is its query's, and no opcode word has more than three operand words. -/
theorem lengthQueryReadsOnlyTheOpcodeWord : Obligations.LengthQueryReadsOnlyTheOpcodeWord := by
  unfold Obligations.LengthQueryReadsOnlyTheOpcodeWord
  intro addr s
  refine ⟨fun outside => ?outside, fun inside => ⟨operandCount_le _, ?inside⟩⟩
  case outside => rw [serve, instructionLength_of_gt s outside, answerQuery]
  case inside => rw [serve, instructionLength_of_le s inside, answerQuery]

/-! ### Operand words as text -/

theorem render_register {w : Word} (low : 32768 ≤ w.toNat) (high : w.toNat ≤ 32775) :
    render w = ['r', Nat.digitChar (w.toNat - 32768)] := by
  unfold render
  rw [if_pos ⟨low, high⟩, Nat.toDigits_of_lt_base (by omega)]

theorem render_numeral {w : Word} (h : w.toNat < 32768 ∨ 32775 < w.toNat) : render w = Nat.toDigits 10 w.toNat :=
  if_neg (by omega)

/-- Dropping the last digit keeps the first one, down to a numeral of one digit. -/
theorem head?_toDigits_ne_zero {n : Nat} (nonzero : n ≠ 0) : (Nat.toDigits 10 n).head? ≠ some '0' := by
  induction n using Nat.strong_induction_on with
  | h n ih =>
    by_cases oneDigit : n < 10
    · rw [Nat.toDigits_of_lt_base oneDigit, List.head?_cons, ne_eq, Option.some_inj, Nat.digitChar_eq_zero]
      exact nonzero
    · rw [Nat.toDigits_of_base_le (by decide) (by omega), List.head?_append_of_ne_nil _ Nat.toDigits_ne_nil]
      exact ih (n / 10) (by omega) (by omega)

/-- Settles O29: a selector's number is one digit, and every other word is the library's decimal numeral. -/
theorem operandsRenderAsRegistersOrNumerals : Obligations.OperandsRenderAsRegistersOrNumerals := by
  unfold Obligations.OperandsRenderAsRegistersOrNumerals
  refine fun w => ⟨render_register, fun number => ?numeral⟩
  case numeral =>
    rw [render_numeral number]
    refine ⟨fun c digit => Nat.isDigit_of_mem_toDigits (by decide) (by decide) digit,
      Nat.ofDigitChars_ten_toDigits, fun nonzero => head?_toDigits_ne_zero ?_, fun zero => ?_⟩
    · exact fun same => nonzero (BitVec.eq_of_toNat_eq same)
    · rw [zero]
      rfl

/-! ### DISASSEMBLE -/

/-- No opcode word above 21 is in the table (30_encoding R97). -/
theorem mnemonicOf_of_gt {op : Word} (high : 21 < op.toNat) : mnemonicOf op = none := by
  unfold mnemonicOf
  split
  case h_23 => rfl
  all_goals omega

theorem exists_mnemonicOf_of_le {op : Word} (low : op.toNat ≤ 21) : ∃ name, mnemonicOf op = some name := by
  unfold mnemonicOf
  split
  case h_23 =>
    simp only [imp_false] at *
    omega
  all_goals exact ⟨_, rfl⟩

/-- The operands' text, word by word from the index a on. -/
theorem renderOperands_eq_flatMap (s : State) (a n : Nat) :
    renderOperands s a n = (List.range n).flatMap (fun k => ' ' :: render (s.M (a + k))) := by
  induction n generalizing a with
  | zero => rfl
  | succ n ih =>
    have later : ∀ k, a + 1 + k = a + (k + 1) := by omega
    rw [renderOperands, ih, List.range_succ_eq_map, List.flatMap_cons, List.flatMap_map]
    simp only [later, Nat.add_zero, Nat.succ_eq_add_one]

theorem disassemble_of_gt (s : State) {addr : Word} (h : 32775 < addr.toNat) : disassemble s addr = none :=
  if_pos h

theorem disassemble_unknown (s : State) {addr : Word} (inside : addr.toNat ≤ 32775)
    (unknown : mnemonicOf (s.M addr.toNat) = none) : disassemble s addr = some s.params.unknownMnemonic := by
  simp only [disassemble, if_neg (Nat.not_lt.mpr inside), unknown]

theorem disassemble_known (s : State) {addr : Word} {name : Text} (inside : addr.toNat ≤ 32775)
    (known : mnemonicOf (s.M addr.toNat) = some name) :
    disassemble s addr =
      if 32775 < addr.toNat + operandCount (s.M addr.toNat) then none
      else some (name ++ renderOperands s (addr.toNat + 1) (operandCount (s.M addr.toNat))) := by
  simp only [disassemble, if_neg (Nat.not_lt.mpr inside), known]

/-- Settles O30: the table by evaluation, and the three branches of the query on the port. -/
theorem disassemblyIsMnemonicAndOperands : Obligations.DisassemblyIsMnemonicAndOperands := by
  unfold Obligations.DisassemblyIsMnemonicAndOperands
  refine ⟨by decide, fun addr s => ⟨fun outside => ?outside, fun inside high => ?unknown,
    fun inside low => ?known⟩⟩
  case outside => rw [serve, disassemble_of_gt s outside, answerQuery]
  case unknown => rw [serve, disassemble_unknown s inside (mnemonicOf_of_gt high), answerQuery]
  case known =>
    obtain ⟨name, known⟩ := exists_mnemonicOf_of_le low
    refine ⟨name, known, ?_⟩
    rw [serve, disassemble_known s inside known, renderOperands_eq_flatMap]
    split <;> rfl

/-! ### Both queries -/

/-- A query's port leaves the state it was given, whatever it answers. -/
theorem answerQuery_keeps_state {α : Type} (a : Option α) (f : α → Reply) (s : State) :
    ∃ q, answerQuery a f s = .reply q s := by
  cases a with
  | none => exact ⟨.outOfRange, rfl⟩
  | some x => exact ⟨f x, rfl⟩

/-- Settles O24: both ports answer by `answerQuery`. -/
theorem introspectionChangesNothing : Obligations.IntrospectionChangesNothing := by
  unfold Obligations.IntrospectionChangesNothing
  exact fun addr s => ⟨answerQuery_keeps_state (instructionLength s addr) .length s,
    answerQuery_keeps_state (disassemble s addr) .text s⟩

end Sys2Proof.Machine
end

section
/-! PROOFS. The codec (49_host_interface R251, R252), by induction over the image's byte pairs: how many words there
are, which word each pair gives, and the bytes each word splits into. -/

namespace Sys2Proof.Machine

/-- Two bytes make a word without loss: no bit of the pair falls outside the 16. -/
theorem toNat_bytePair (lo hi : Byte) :
    (BitVec.ofNat 16 (lo.toNat + 256 * hi.toNat)).toNat = lo.toNat + 256 * hi.toNat := by
  rw [BitVec.toNat_ofNat]
  omega

theorem low_of_bytePair (lo hi : Byte) : BitVec.ofNat 8 ((lo.toNat + 256 * hi.toNat) % 256) = lo := by
  have low : (lo.toNat + 256 * hi.toNat) % 256 = lo.toNat := by omega
  rw [low, BitVec.ofNat_toNat, BitVec.setWidth_eq]

theorem high_of_bytePair (lo hi : Byte) : BitVec.ofNat 8 ((lo.toNat + 256 * hi.toNat) / 256) = hi := by
  have high : (lo.toNat + 256 * hi.toNat) / 256 = hi.toNat := by omega
  rw [high, BitVec.ofNat_toNat, BitVec.setWidth_eq]

theorem imageWords_length (bytes : List Byte) : (imageWords bytes).length = bytes.length / 2 := by
  induction bytes using imageWords.induct with
  | case1 lo hi rest ih =>
    simp only [imageWords, List.length_cons, ih]
    omega
  | case2 => simp [imageWords]
  | case3 => rfl

/-- A word past the first pair is a word of the remaining bytes, two places further on. -/
theorem imageWords_getD (bytes : List Byte) {i : Nat} (h : i < bytes.length / 2) :
    (imageWords bytes).getD i 0 =
      BitVec.ofNat 16 ((bytes.getD (2 * i) 0).toNat + 256 * (bytes.getD (2 * i + 1) 0).toNat) := by
  induction bytes using imageWords.induct generalizing i with
  | case1 lo hi rest ih =>
    cases i with
    | zero => rfl
    | succ i =>
      have inRest : i < rest.length / 2 := by
        simp only [List.length_cons] at h
        omega
      exact ih inRest
  | case2 => simp at h
  | case3 => simp at h

/-- Settles O4: the length and the word at each index, both by induction over the pairs. -/
theorem imageBytesPairLowByteFirst : Obligations.ImageBytesPairLowByteFirst := by
  unfold Obligations.ImageBytesPairLowByteFirst
  exact fun bytes => ⟨imageWords_length bytes, fun _ h => imageWords_getD bytes h⟩

/-- The low and the high byte of a word, as R252 splits it. -/
def bytesOfWord (w : Word) : List Byte := [BitVec.ofNat 8 (w.toNat % 256), BitVec.ofNat 8 (w.toNat / 256)]

theorem bytesOfWord_bytePair (lo hi : Byte) :
    bytesOfWord (BitVec.ofNat 16 (lo.toNat + 256 * hi.toNat)) = [lo, hi] := by
  rw [bytesOfWord, toNat_bytePair, low_of_bytePair, high_of_bytePair]

/-- An even-length image consists of whole pairs: a byte left alone contradicts `even`. -/
theorem flatMap_bytesOfWord_imageWords {bytes : List Byte} (even : bytes.length % 2 = 0) :
    (imageWords bytes).flatMap bytesOfWord = bytes := by
  induction bytes using imageWords.induct with
  | case1 lo hi rest ih =>
    have evenRest : rest.length % 2 = 0 := (Nat.add_mod_right rest.length 2).symm.trans even
    rw [imageWords, List.flatMap_cons, bytesOfWord_bytePair, ih evenRest]
    rfl
  | case2 => exact absurd even Nat.one_ne_zero
  | case3 => rfl

theorem imageWords_append_odd_byte {bytes : List Byte} (even : bytes.length % 2 = 0) (x : Byte) :
    imageWords (bytes ++ [x]) = imageWords bytes := by
  induction bytes using imageWords.induct with
  | case1 lo hi rest ih =>
    have evenRest : rest.length % 2 = 0 := (Nat.add_mod_right rest.length 2).symm.trans even
    rw [List.cons_append, List.cons_append, imageWords, imageWords, ih evenRest]
  | case2 => exact absurd even Nat.one_ne_zero
  | case3 => rfl

/-- Settles O5: each word splits into the pair it was made of, and a byte without a partner makes no word. -/
theorem reencodingAnEvenImageGivesItBack : Obligations.ReencodingAnEvenImageGivesItBack := by
  unfold Obligations.ReencodingAnEvenImageGivesItBack
  exact ⟨rfl, fun _ even => ⟨flatMap_bytesOfWord_imageWords even, imageWords_append_odd_byte even⟩⟩

end Sys2Proof.Machine
end

section
/-! PROOFS. The ports of 49_host_interface: the read accessors (R261), and the three answers of SUPPLY_INPUT (R257). -/

namespace Sys2Proof.Machine

/-! ### The read accessors -/

theorem readRegs_eq (s : State) :
    readRegs s = [s.reg 0, s.reg 1, s.reg 2, s.reg 3, s.reg 4, s.reg 5, s.reg 6, s.reg 7] := rfl

theorem readMem_length (s : State) : (readMem s).length = 32768 := by
  rw [readMem, List.length_map, List.length_range]

theorem readMem_getD (s : State) {i : Nat} (h : i < 32768) : (readMem s).getD i 0 = s.M i := by
  rw [readMem, List.getD_eq_getElem?_getD, List.getElem?_map, List.getElem?_range h]
  rfl

/-- Settles O25: READ_REGS and READ_MEM list what the lemmas above say, every other accessor answers a field, and
the codes are the two tables. -/
theorem readAccessorsReturnTheState : Obligations.ReadAccessorsReturnTheState := by
  unfold Obligations.ReadAccessorsReturnTheState
  refine fun s => ⟨?regs, rfl, ⟨readMem s, rfl, readMem_length s, fun _ h => readMem_getD s h⟩, rfl, rfl, rfl,
    by decide, by decide⟩
  case regs => rw [serve, readRegs_eq]

/-! ### SUPPLY_INPUT -/

theorem supplyInput_not_awaited (addr v : Word) {s : State} (notAwaiting : s.status ≠ .awaitInput) :
    supplyInput addr v s = .reply (.rejected .notAwaitingInput) s := if_pos notAwaiting

theorem supplyInput_outside (v : Word) {addr : Word} {s : State} (awaiting : s.status = .awaitInput)
    (outside : 32775 < addr.toNat) : supplyInput addr v s = .reply (.rejected .addressOutOfRange) s := by
  rw [supplyInput, if_neg (not_not_intro awaiting), if_pos outside]

/-- Settles O26: an accepted word goes through `setM`, whose laws give the cell written and all the others. -/
theorem supplyInputWritesTheIndexItIsGiven : Obligations.SupplyInputWritesTheIndexItIsGiven := by
  unfold Obligations.SupplyInputWritesTheIndexItIsGiven
  refine fun addr v s => ⟨supplyInput_not_awaited addr v, supplyInput_outside v, ?accepted⟩
  case accepted =>
    exact fun awaiting inArray => ⟨_, supplyInput_awaited v awaiting inArray, State.M_setM_self s addr.toNat v,
      fun _ other => State.M_setM_ne s v other, rfl, rfl, rfl, ⟨rfl, rfl, rfl⟩, rfl, rfl⟩

end Sys2Proof.Machine
end

section
/-! PROOFS. Fault entry (60_exceptions R283): FAULTED is the status of no answer but FAULT, so a READY step that ends
FAULTED took a fault. -/

namespace Sys2Proof.Machine

theorem answer_status_ne_faulted {u t : State} {st : Status} {r : Response} (after : t = u.answer st r)
    (other : st ≠ .faulted) : t.status ≠ .faulted := by
  rw [after]
  exact other

/-- Every effect but a fault answers with a status of its own, which is READY, AWAIT_INPUT or HALTED. -/
theorem Effect.faultedWith_of_faulted {i : Instr} {s t : State} (effect : Effect i s t)
    (faulted : t.status = .faulted) : ∃ cause info, cause ≠ .none ∧ faultedWith s t cause info := by
  cases effect
  case fault cause info named taken => exact ⟨cause, info, named, taken⟩
  all_goals
    rename_i after
    exact absurd faulted (answer_status_ne_faulted after (by decide))

/-- Settles O15: the fetched instruction's effect was a fault, or the fetch itself faulted. -/
theorem faultingStepChangesNothingElse : Obligations.FaultingStepChangesNothingElse := by
  unfold Obligations.FaultingStepChangesNothingElse
  intro s t ready h faulted
  obtain ⟨i, -, effect⟩ | ⟨p, -, taken⟩ := step_effect_of_ready ready h
  · exact effect.faultedWith_of_faulted faulted
  · exact ⟨.fetchOutOfRange, p, by decide, taken⟩

end Sys2Proof.Machine
end

section
/-! PROOFS. The round trip of instructions and words (30_encoding R97 to R102): the operand words an opcode word
takes are all that the instruction made of them encodes to. -/

namespace Sys2Proof

/-- The operand words of the instruction made of op, a, b, c are the first of a, b, c, as many as op's arity. -/
theorem operandsOf_instrOfWords (op a b c : Word) :
    operandsOf (instrOfWords op a b c) = [a, b, c].take (operandCount op) := by
  unfold instrOfWords
  split
  case h_23 =>
    simp only [imp_false] at *
    rw [Laws.EncodedLength.operandCount_unknown (by omega)]
    rfl
  all_goals
    rename_i code
    simp only [operandCount, code, operandsOf, srcToWord_srcOfWord, dstToWord_dstOfWord]
    rfl

/-- Of a list that holds all operand words, `instrOf` looks at the three places up to the arity and at no other. -/
theorem take_getD_three {ws : List Word} {n : Nat} (enough : n ≤ ws.length) (arity : n ≤ 3) :
    [ws.getD 0 0, ws.getD 1 0, ws.getD 2 0].take n = ws.take n := by
  apply List.ext_getElem
  · simp only [List.length_take, List.length_cons, List.length_nil]
    omega
  · intro k h h'
    rw [List.length_take] at h'
    have place : ws.getD k 0 = ws[k] := List.getD_eq_getElem ws 0 (by omega)
    rw [List.getElem_take, List.getElem_take, ← place]
    obtain rfl | rfl | rfl : k = 0 ∨ k = 1 ∨ k = 2 := by omega
    all_goals rfl

/-- No bit of an opcode word or of its operand words is dropped. -/
theorem encode_instrOf {op : Word} {ws : List Word} (enough : operandCount op ≤ ws.length) :
    encode (instrOf op ws) = op :: ws.take (operandCount op) := by
  rw [encode, instrOf, opcodeOf_instrOfWords, operandsOf_instrOfWords,
    take_getD_three enough (operandCount_le op)]

theorem operandsOf_length {i : Instr} (wf : i.wf = true) : (operandsOf i).length = operandCount (opcodeOf i) := by
  have length := encode_length wf
  rw [encode, List.length_cons] at length
  omega

/-- The opcode word and the operand words of a well-formed instruction make it again, whatever words follow. -/
theorem instrOf_operandsOf {i : Instr} (wf : i.wf = true) (rest : List Word) :
    instrOf (opcodeOf i) (operandsOf i ++ rest) = i := by
  cases i with
  | unknown op =>
    have high : 21 < op.toNat := of_decide_eq_true wf
    exact Machine.instrOf_unknown high _
  | _ =>
    simp only [Instr.wf, Bool.and_eq_true] at wf
    simp [instrOf, instrOfWords, opcodeOf, operandsOf, srcOfWord_srcToWord, dstOfWord_dstToWord, wf]

/-- Decoding answers exactly the well-formed instruction whose encoding the words begin with. -/
theorem decode_ok_iff {ws : List Word} {i : Instr} {rest : List Word} :
    decode ws = .ok (i, rest) ↔ i.wf = true ∧ encode i ++ rest = ws := by
  constructor
  · intro decoded
    cases ws with
    | nil => cases decoded
    | cons op ws =>
      by_cases short : ws.length < operandCount op
      · rw [decode, if_pos short] at decoded
        cases decoded
      · rw [decode_of_operandCount_le (by omega)] at decoded
        cases decoded
        refine ⟨instrOfWords_wf .., ?_⟩
        rw [encode_instrOf (by omega), List.cons_append, List.take_append_drop]
  · rintro ⟨wf, rfl⟩
    have length := operandsOf_length wf
    rw [encode, List.cons_append, decode_of_operandCount_le (by rw [List.length_append]; omega),
      instrOf_operandsOf wf, ← length, List.drop_left]

/-- Settles O8: the words of a well-formed instruction are those that decode to it. -/
theorem decodingAnEncodedInstructionGivesItBack : Obligations.DecodingAnEncodedInstructionGivesItBack := by
  unfold Obligations.DecodingAnEncodedInstructionGivesItBack
  exact fun _ _ wf => decode_ok_iff.mpr ⟨wf, rfl⟩

/-- Settles O9: the other direction of the same equivalence. -/
theorem decodedInstructionsEncodeToTheirWords : Obligations.DecodedInstructionsEncodeToTheirWords := by
  unfold Obligations.DecodedInstructionsEncodeToTheirWords
  exact fun _ _ _ => decode_ok_iff.mp

/-- Settles O7: the six word lists, by evaluating the decoder. -/
theorem specWordsDecodeAsWritten : Obligations.SpecWordsDecodeAsWritten := by
  unfold Obligations.SpecWordsDecodeAsWritten
  decide

end Sys2Proof
end

section
/-! PROOFS. Fetching (40_engine_cycle R121, R122): the fetch at the pc gives the instruction whose encoding stands
there, or faults at the first index past the array. -/

namespace Sys2Proof.Machine

theorem toNat_add_one {p : Word} (inArray : p.toNat ≤ 32775) : (p + 1).toNat = p.toNat + 1 := by
  have one : (1 : Word).toNat = 1 := rfl
  rw [BitVec.toNat_add, one]
  omega

/-- Words stand from an index on if the first stands there and the others from the next index on. -/
theorem wordsAt_cons {s : State} {p : Nat} {w : Word} {ws : List Word} :
    wordsAt s p (w :: ws) ↔ s.M p = w ∧ wordsAt s (p + 1) ws ∧ p < 32776 := by
  have next : ∀ k, p + (k + 1) = p + 1 + k := by omega
  simp only [wordsAt, List.length_cons]
  constructor
  · rintro ⟨inside, cells⟩
    refine ⟨cells 0 (by omega), ⟨by omega, fun k h => ?_⟩, by omega⟩
    rw [← next]
    exact cells (k + 1) (by omega)
  · rintro ⟨first, ⟨inside, cells⟩, -⟩
    refine ⟨by omega, fun k h => ?_⟩
    cases k with
    | zero => exact first
    | succ k =>
      rw [next]
      exact cells k (by omega)

theorem wordsAt_of_append {s : State} {p : Nat} {ws rest : List Word} (h : wordsAt s p (ws ++ rest)) :
    wordsAt s p ws := by
  obtain ⟨inside, cells⟩ := h
  rw [List.length_append] at inside
  refine ⟨by omega, fun k h => ?_⟩
  rw [cells k (by rw [List.length_append]; omega), List.getElem_append_left]

/-- n fetches from a cell, or from the end of the array, give the n words that stand there, and fault if there are
fewer. -/
theorem fetchWords_ok_iff {s : State} {n : Nat} {p : Word} (start : p.toNat ≤ 32776) {ws : List Word} :
    fetchWords s n p = .ok ws ↔ ws.length = n ∧ wordsAt s p.toNat ws := by
  constructor
  · intro fetched
    by_cases room : p.toNat + n ≤ 32776
    · obtain ⟨ws', fetched', length, cells⟩ := fetchWords_in n room
      cases fetched.symm.trans fetched'
      exact ⟨length, by omega, fun k h => (cells k h).symm⟩
    · cases fetched.symm.trans (fetchWords_out n start (by omega))
  · rintro ⟨rfl, room, stands⟩
    obtain ⟨ws', fetched, length, cells⟩ := fetchWords_in ws.length room
    have same : ws' = ws := List.ext_getElem length fun k h h' => (cells k h).trans (stands k h')
    rw [fetched, same]

theorem fetchInstr_out {s : State} (outside : 32775 < s.pc.toNat) : fetchInstr s = .error s.pc := by
  simp only [fetchInstr, fetchWord_out outside]

/-- The opcode word's fetch, then its operands' (R121). -/
theorem fetchInstr_of_operands {s : State} {ws : List Word} (inside : s.pc.toNat ≤ 32775)
    (fetched : fetchWords s (operandCount (s.M s.pc.toNat)) (s.pc + 1) = .ok ws) :
    fetchInstr s = .ok (instrOf (s.M s.pc.toNat) ws) := by
  simp only [fetchInstr, fetchWord_in inside, fetched]

theorem fetchInstr_of_operands_out {s : State} {p : Word} (inside : s.pc.toNat ≤ 32775)
    (failed : fetchWords s (operandCount (s.M s.pc.toNat)) (s.pc + 1) = .error p) :
    fetchInstr s = .error p := by
  simp only [fetchInstr, fetchWord_in inside, failed]

/-- The fetch at the pc gives the well-formed instruction whose words stand there. -/
theorem fetchInstr_ok_iff {s : State} {i : Instr} :
    fetchInstr s = .ok i ↔ i.wf = true ∧ wordsAt s s.pc.toNat (encode i) := by
  constructor
  · intro fetched
    by_cases inside : s.pc.toNat ≤ 32775
    · have next : (s.pc + 1).toNat = s.pc.toNat + 1 := toNat_add_one inside
      cases operands : fetchWords s (operandCount (s.M s.pc.toNat)) (s.pc + 1) with
      | error p => cases fetched.symm.trans (fetchInstr_of_operands_out inside operands)
      | ok ws =>
        cases fetched.symm.trans (fetchInstr_of_operands inside operands)
        obtain ⟨length, stand⟩ := (fetchWords_ok_iff (by omega)).mp operands
        rw [encode_instrOf length.ge, List.take_of_length_le length.le, wordsAt_cons, ← next]
        exact ⟨instrOfWords_wf .., rfl, stand, by omega⟩
    · cases fetched.symm.trans (fetchInstr_out (by omega))
  · rintro ⟨wf, stands⟩
    obtain ⟨opcode, stand, inside⟩ := wordsAt_cons.mp stands
    have next : (s.pc + 1).toNat = s.pc.toNat + 1 := toNat_add_one (by omega)
    have operands : fetchWords s (operandCount (s.M s.pc.toNat)) (s.pc + 1) = .ok (operandsOf i) := by
      rw [fetchWords_ok_iff (by omega), next, opcode]
      exact ⟨operandsOf_length wf, stand⟩
    have same : instrOf (opcodeOf i) (operandsOf i) = i := by
      simpa using instrOf_operandsOf wf []
    rw [fetchInstr_of_operands (by omega) operands, opcode, same]

theorem opcodeOf_of_fetchInstr {s : State} {i : Instr} (fetched : fetchInstr s = .ok i) :
    s.M s.pc.toNat = opcodeOf i ∧ s.pc.toNat ≤ 32775 := by
  obtain ⟨opcode, -, inside⟩ := wordsAt_cons.mp (fetchInstr_ok_iff.mp fetched).2
  exact ⟨opcode, by omega⟩

theorem step_of_fetched {s : State} {i : Instr} (ready : s.status = .ready) (fetched : fetchInstr s = .ok i) :
    step s = exec i s := by
  rw [step_ready ready, fetched]

theorem step_of_not_fetched {s : State} {p : Word} (ready : s.status = .ready) (failed : fetchInstr s = .error p) :
    ∃ t, step s = .next t ∧ faultedWith s t .fetchOutOfRange p := by
  rw [step_ready ready, failed]
  exact raise_takes (fetchFault p) s

/-- Settles O11: words that decode to an instruction begin with its encoding, so the fetch gives it. -/
theorem stepRunsTheDecodedInstruction : Obligations.StepRunsTheDecodedInstruction := by
  unfold Obligations.StepRunsTheDecodedInstruction
  intro s ws i rest ready stand decoded
  obtain ⟨wf, rfl⟩ := decode_ok_iff.mp decoded
  exact step_of_fetched ready (fetchInstr_ok_iff.mpr ⟨wf, wordsAt_of_append stand⟩)

/-- Settles O12: the fetch of the opcode word fails, or that of the operand words at the end of the array. -/
theorem fetchOutsideTheArrayFaults : Obligations.FetchOutsideTheArrayFaults := by
  unfold Obligations.FetchOutsideTheArrayFaults
  refine fun s ready => ⟨fun outside => step_of_pc_out ready outside, fun inside pastTheEnd => ?operands⟩
  case operands =>
    have next : (s.pc + 1).toNat = s.pc.toNat + 1 := toNat_add_one inside
    have failed := fetchWords_out (s := s) (operandCount (s.M s.pc.toNat)) (p := s.pc + 1) (by omega) (by omega)
    exact step_of_not_fetched ready (fetchInstr_of_operands_out inside failed)

/-- Settles O32: the fetched instruction's words stand at the pc, and their number is its opcode word's. -/
theorem stepFetchesExactlyTheQueriedLength : Obligations.StepFetchesExactlyTheQueriedLength := by
  unfold Obligations.StepFetchesExactlyTheQueriedLength
  intro s i fetched
  obtain ⟨wf, stand⟩ := fetchInstr_ok_iff.mp fetched
  obtain ⟨opcode, inside⟩ := opcodeOf_of_fetchInstr fetched
  refine ⟨?length, stand⟩
  case length => rw [instructionLength_of_le s inside, opcode, encode_length wf]

end Sys2Proof.Machine
end

section
/-! PROOFS. Frames: what an instruction and a step leave unchanged, read off the effects (10_state R45,
40_engine_cycle R133), and the answers outside READY. -/

namespace Sys2Proof.Machine

/-! ### Instructions -/

theorem faultedWith.sameCells {s t : State} {cause : FaultCause} {info : Word}
    (taken : faultedWith s t cause info) : sameCells s t := by
  obtain ⟨-, -, -, -, memory, -⟩ := taken
  exact State.M_congr memory

theorem faultedWith.stack {s t : State} {cause : FaultCause} {info : Word} (taken : faultedWith s t cause info) :
    t.stack = s.stack := by
  obtain ⟨-, -, -, -, -, stack, -⟩ := taken
  exact stack

theorem faultedWith.sameFixed {s t : State} {cause : FaultCause} {info : Word}
    (taken : faultedWith s t cause info) : sameFixed s t := by
  obtain ⟨-, -, -, -, -, -, -, -, fixed⟩ := taken
  exact fixed

/-- What an effect does to the cells: only a store and POP change one, the cell the instruction names. -/
theorem Effect.cells {i : Instr} {s t : State} (effect : Effect i s t) :
    ∀ k, storedAt i s ≠ some k → t.M k = s.M k := by
  intro k other
  cases effect
  case fault taken => exact taken.sameCells k
  case store d v p inArray stored after =>
    rw [stored] at other
    subst after
    exact State.M_setM_ne s v fun same => other (congrArg some same.symm)
  case pop a d v p st isPop index top after =>
    subst isPop after
    simp only [storedAt, index, Except.toOption] at other
    exact State.M_setM_ne s v fun same => other (congrArg some same.symm)
  all_goals
    rename_i after
    subst after
    rfl

/-- What an effect does to the stack: nothing, a push of PUSH or CALL, or a pop of POP or RET. -/
theorem Effect.stack {i : Instr} {s t : State} (effect : Effect i s t) :
    t.stack = s.stack ∨ movesStack i = true ∧ ((∃ v, t.stack = v :: s.stack) ∨ ∃ v, s.stack = v :: t.stack) := by
  cases effect
  case fault taken => exact .inl taken.stack
  case push v p pushes room after => subst after; exact .inr ⟨pushes, .inl ⟨v, rfl⟩⟩
  case pop a d v p st isPop index top after => subst isPop after; exact .inr ⟨rfl, .inr ⟨v, top⟩⟩
  case ret v st isRet top after => subst isRet after; exact .inr ⟨rfl, .inr ⟨v, top⟩⟩
  all_goals
    rename_i after
    subst after
    exact .inl rfl

theorem Effect.stack_of_not_movesStack {i : Instr} {s t : State} (effect : Effect i s t)
    (still : movesStack i = false) : t.stack = s.stack := by
  obtain same | ⟨moves, -⟩ := effect.stack
  · exact same
  · exact absurd moves (Bool.eq_false_iff.mp still)

/-- POP alone changes both a cell and the stack. -/
theorem Effect.pop_of_changes {i : Instr} {s t : State} (effect : Effect i s t) (stack : t.stack ≠ s.stack)
    (cells : ¬ sameCells s t) : ∃ a, i = .pop a ∧ ∃ v, s.stack = v :: t.stack := by
  cases effect
  case pop a d v p st isPop index top after => subst after; exact ⟨a, isPop, v, top⟩
  case fault taken => exact absurd taken.stack stack
  case push after => subst after; exact absurd (fun _ => rfl) cells
  case ret after => subst after; exact absurd (fun _ => rfl) cells
  all_goals
    rename_i after
    subst after
    exact absurd rfl stack

theorem Effect.sameFixed {i : Instr} {s t : State} (effect : Effect i s t) : sameFixed s t := by
  cases effect
  case fault taken => exact taken.sameFixed
  all_goals
    rename_i after
    subst after
    exact ⟨rfl, rfl⟩

/-- Only IN's answer records an address, and only a fault its cause and word (R129). -/
theorem Effect.records {i : Instr} {s t : State} (effect : Effect i s t) :
    (t.status ≠ .awaitInput → t.pendingAddr = s.pendingAddr) ∧
      (t.status ≠ .faulted → t.faultCause = s.faultCause ∧ t.faultInfo = s.faultInfo) := by
  cases effect
  case fault taken =>
    obtain ⟨status, -, -, -, -, -, -, pending, -⟩ := taken
    exact ⟨fun _ => pending, fun other => absurd status other⟩
  case await after =>
    subst after
    exact ⟨fun other => absurd rfl other, fun _ => ⟨rfl, rfl⟩⟩
  all_goals
    rename_i after
    subst after
    exact ⟨fun _ => rfl, fun _ => ⟨rfl, rfl⟩⟩

/-- Settles O59: the cells of an instruction's effect. -/
theorem instructionsLeaveOtherCellsAlone : Obligations.InstructionsLeaveOtherCellsAlone := by
  unfold Obligations.InstructionsLeaveOtherCellsAlone
  exact fun _ _ _ h => (exec_effect h).cells

/-- Settles O60: the stack, the fixed fields and the records of an instruction's effect. -/
theorem instructionsLeaveOtherStateAlone : Obligations.InstructionsLeaveOtherStateAlone := by
  unfold Obligations.InstructionsLeaveOtherStateAlone
  intro i s t h
  have effect : Effect i s t := exec_effect h
  exact ⟨effect.stack_of_not_movesStack, effect.sameFixed, effect.records⟩

/-! ### Steps -/

theorem step_of_halted {s : State} (halted : s.status = .halted) : step s = .next (s.respond .halt) := by
  simp only [step, halted, answerHalted]

theorem step_of_faulted {s : State} (faulted : s.status = .faulted) :
    step s = .next (s.respond (.fault s.faultCause s.faultInfo)) := by
  simp only [step, faulted, answerFaulted]

/-- Settles O13: each row of R120's table outside READY is a `respond`. -/
theorem stepOutsideReadyOnlyAnswers : Obligations.StepOutsideReadyOnlyAnswers := by
  unfold Obligations.StepOutsideReadyOnlyAnswers
  exact fun s => ⟨fun awaiting => ⟨_, step_of_awaitInput awaiting, rfl, rfl⟩,
    fun halted => ⟨_, step_of_halted halted, rfl, rfl⟩, fun faulted => ⟨_, step_of_faulted faulted, rfl, rfl⟩⟩

/-- The two ways in which O16 says that a step runs no instruction. -/
theorem runs_nothing_iff {s : State} :
    (s.status ≠ .ready ∨ ∀ i, fetchInstr s ≠ .ok i) ↔ ¬ (s.status = .ready ∧ ∃ i, fetchInstr s = .ok i) := by
  rw [not_and_or, not_exists]

/-- A step has the effect of the instruction it fetched, or runs none and leaves the cells and the stack. -/
theorem step_effect {s t : State} (h : step s = .next t) :
    (s.status = .ready ∧ ∃ i, fetchInstr s = .ok i ∧ Effect i s t) ∨
      ¬ (s.status = .ready ∧ ∃ i, fetchInstr s = .ok i) ∧ sameCells s t ∧ t.stack = s.stack := by
  obtain ⟨ready, i, fetched, h⟩ | ⟨-, p, failed, taken⟩ | ⟨status, rfl⟩ | ⟨status, rfl⟩ | ⟨status, rfl⟩ :=
    step_next h
  · exact .inl ⟨ready, i, fetched, exec_effect h⟩
  · exact .inr ⟨by simp [failed], taken.sameCells, taken.stack⟩
  all_goals exact .inr ⟨by simp [status], fun _ => rfl, rfl⟩

/-- Settles O16: the effect of the fetched instruction, whose opcode word is the cell at the pc. -/
theorem stepChangesAtMostOneCellAndOneEntry : Obligations.StepChangesAtMostOneCellAndOneEntry := by
  unfold Obligations.StepChangesAtMostOneCellAndOneEntry
  intro s t h
  rw [runs_nothing_iff]
  obtain ⟨ready, i, fetched, effect⟩ | ⟨runsNothing, cells, stack⟩ := step_effect h
  · refine ⟨fun j _ fetched' => ?fetchedOne, fun runsNothing => absurd ⟨ready, i, fetched⟩ runsNothing,
      effect.stack.imp_right And.right⟩
    case fetchedOne =>
      cases fetched.symm.trans fetched'
      refine ⟨effect.cells, effect.stack_of_not_movesStack, fun stackChanged cellsChanged => ?both⟩
      case both =>
        obtain ⟨a, rfl, popped⟩ := effect.pop_of_changes stackChanged cellsChanged
        exact ⟨⟨a, rfl⟩, (opcodeOf_of_fetchInstr fetched).1, popped⟩
  · exact ⟨fun i ready fetched => absurd ⟨ready, i, fetched⟩ runsNothing, fun _ => ⟨cells, stack⟩, .inl stack⟩

end Sys2Proof.Machine
end

section
/-! PROOFS. Noninterference (10_state R45, 40_engine_cycle R133): every operation carries two states with the same
program view to results with the same program view, status and answer. -/

namespace Sys2Proof.Machine

/-- If the first result is a next state, the second is one that a program and the host cannot tell apart from it. -/
def alike (r₁ r₂ : Result) : Prop :=
  ∀ t₁, r₁ = .next t₁ →
    ∃ t₂, r₂ = .next t₂ ∧ sameProgramView t₁ t₂ ∧ t₁.status = t₂.status ∧ t₁.response = t₂.response

theorem alike_answer {u₁ u₂ : State} (view : sameProgramView u₁ u₂) (st : Status) (r : Response) :
    alike (.next (u₁.answer st r)) (.next (u₂.answer st r)) := by
  rintro _ ⟨rfl⟩
  exact ⟨_, rfl, view, rfl, rfl⟩

theorem alike_emitAwaitInput {u₁ u₂ : State} (view : sameProgramView u₁ u₂) (a : Word) :
    alike (emitAwaitInput a u₁) (emitAwaitInput a u₂) := by
  rintro _ ⟨rfl⟩
  exact ⟨_, rfl, view, rfl, rfl⟩

theorem sameProgramView.M {s₁ s₂ : State} (view : sameProgramView s₁ s₂) (k : Nat) : s₁.M k = s₂.M k :=
  State.M_congr view.1 k

theorem sameProgramView.setM {s₁ s₂ : State} (view : sameProgramView s₁ s₂) (a : Nat) (v : Word) :
    sameProgramView (s₁.setM a v) (s₂.setM a v) := by
  obtain ⟨memory, rest⟩ := view
  exact ⟨congrArg (Memory.write · a v) memory, rest⟩

theorem sameProgramView.setPc {s₁ s₂ : State} (view : sameProgramView s₁ s₂) (p : Word) :
    sameProgramView (s₁.setPc p) (s₂.setPc p) := by
  obtain ⟨memory, stack, -, params⟩ := view
  exact ⟨memory, stack, rfl, params⟩

theorem sameProgramView.setStack {s₁ s₂ : State} (view : sameProgramView s₁ s₂) (st : List Word) :
    sameProgramView (s₁.setStack st) (s₂.setStack st) := by
  obtain ⟨memory, -, rest⟩ := view
  exact ⟨memory, rfl, rest⟩

theorem sameProgramView.past {s₁ s₂ : State} (view : sameProgramView s₁ s₂) (n : Nat) : s₁.past n = s₂.past n := by
  obtain ⟨-, -, pc, -⟩ := view
  rw [State.past, pc, State.past]

section
variable {s₁ s₂ : State} (view : sameProgramView s₁ s₂)
include view

theorem alike_raise (tr : Trap) : alike (raise tr s₁) (raise tr s₂) := by
  rintro _ ⟨rfl⟩
  exact ⟨_, rfl, view, rfl, rfl⟩

theorem alike_withDst (a : Dst) {k₁ k₂ : Nat → Result} (next : ∀ d, alike (k₁ d) (k₂ d)) :
    alike (withDst a s₁ k₁) (withDst a s₂ k₂) := by
  unfold withDst
  cases dstIndex a with
  | ok d => exact next d
  | error tr => exact alike_raise view tr

theorem alike_withSrc (o : Src) {k₁ k₂ : Word → Result} (next : ∀ v, alike (k₁ v) (k₂ v)) :
    alike (withSrc o s₁ k₁) (withSrc o s₂ k₂) := by
  unfold withSrc
  rw [srcValue_congr o view.1]
  cases srcValue o s₂ with
  | ok v => exact next v
  | error tr => exact alike_raise view tr

theorem alike_withAddress (v : Word) {k₁ k₂ : Nat → Result} (next : ∀ d, alike (k₁ d) (k₂ d)) :
    alike (withAddress v s₁ k₁) (withAddress v s₂ k₂) := by
  unfold withAddress
  split
  · exact alike_raise view _
  · exact next _

theorem alike_withPop (op : Word) {k₁ k₂ : Word → List Word → Result} (next : ∀ v st, alike (k₁ v st) (k₂ v st)) :
    alike (withPop op s₁ k₁) (withPop op s₂ k₂) := by
  have stack : s₁.stack = s₂.stack := view.2.1
  unfold withPop
  rw [stack]
  cases s₂.stack with
  | nil => exact alike_raise view _
  | cons v st => exact next v st

theorem alike_answerPast (n : Nat) (st : Status) (r : Response) :
    alike (.next ((s₁.setPc (s₁.past n)).answer st r)) (.next ((s₂.setPc (s₂.past n)).answer st r)) := by
  rw [view.past]
  exact alike_answer (view.setPc _) st r

theorem alike_moveTo (p : Word) : alike (emitContinue (s₁.setPc p)) (emitContinue (s₂.setPc p)) :=
  alike_answer (view.setPc p) .ready .cont

theorem alike_storeAndContinue (n d : Nat) (v : Word) :
    alike (storeAndContinue s₁ n d v) (storeAndContinue s₂ n d v) := by
  unfold storeAndContinue
  rw [view.past]
  exact alike_moveTo (view.setM d v) _

theorem alike_pushAndContinue (v p : Word) : alike (pushAndContinue s₁ v p) (pushAndContinue s₂ v p) := by
  obtain ⟨-, stack, -, params⟩ := id view
  have full : s₁.stackFull = s₂.stackFull := by rw [State.stackFull, params, stack, State.stackFull]
  unfold pushAndContinue
  rw [full, stack]
  split
  · exact alike_raise view _
  · exact alike_moveTo (view.setStack _) p

theorem alike_alu3 (f : Word → Word → Word) (a : Dst) (b c : Src) : alike (alu3 f a b c s₁) (alu3 f a b c s₂) :=
  alike_withDst view a fun d => alike_withSrc view b fun _ => alike_withSrc view c fun _ =>
    alike_storeAndContinue view 4 d _

/-- No instruction looks at the hidden state. -/
theorem alike_exec (i : Instr) : alike (exec i s₁) (exec i s₂) := by
  cases i with
  | halt | unknown op => exact alike_answerPast view 1 .halted .halt
  | nop => exact alike_answerPast view 1 .ready .cont
  | jmp a => exact alike_withSrc view a fun v => alike_moveTo view v
  | jt a b | jf a b => exact alike_withSrc view a fun v => view.past 3 ▸ alike_moveTo view _
  | call a => exact alike_withSrc view a fun v => view.past 2 ▸ alike_pushAndContinue view _ v
  | push a => exact alike_withSrc view a fun v => view.past 2 ▸ alike_pushAndContinue view v _
  | ret => exact alike_withPop view 18 fun v st => alike_moveTo (view.setStack st) v
  | pop a =>
    exact alike_withDst view a fun d => alike_withPop view 3 fun v st =>
      alike_storeAndContinue (view.setStack st) 2 d v
  | set a b =>
    exact alike_withDst view a fun d => alike_withSrc view b fun v => alike_storeAndContinue view 3 d v
  | rmem a b =>
    exact alike_withDst view a fun d => alike_withSrc view b fun v => alike_withAddress view v fun k =>
      view.M k ▸ alike_storeAndContinue view 3 d _
  | wmem a b =>
    exact alike_withSrc view a fun v => alike_withSrc view b fun x => alike_withAddress view v fun k =>
      alike_storeAndContinue view 3 k x
  | eq a b c | gt a b c | add a b c | mul a b c | and a b c | or a b c => exact alike_alu3 view _ a b c
  | mod a b c =>
    refine alike_withDst view a fun d => alike_withSrc view b fun x => alike_withSrc view c fun y => ?_
    by_cases zero : y = 0
    · rw [if_pos zero, if_pos zero]
      exact alike_raise view _
    · rw [if_neg zero, if_neg zero]
      exact alike_storeAndContinue view 4 d _
  | not a b =>
    refine alike_withDst view a fun d => alike_withSrc view b fun x => ?_
    have params : s₁.params = s₂.params := view.2.2.2
    rw [params]
    cases aluNot s₂.params.notHigh x with
    | some r => exact alike_storeAndContinue view 3 d r
    | none => rintro _ ⟨⟩
  | out a =>
    refine alike_withSrc view a fun c => ?_
    have params : s₁.params = s₂.params := view.2.2.2
    rw [params]
    split
    · exact alike_answerPast view 2 .ready (.output c)
    · exact alike_raise view _
  | inp a =>
    exact alike_withDst view a fun d => view.past 2 ▸ alike_emitAwaitInput (view.setPc _) _

theorem fetchWords_eq_of_sameProgramView (n : Nat) (p : Word) : fetchWords s₁ n p = fetchWords s₂ n p := by
  induction n generalizing p with
  | zero => rfl
  | succ n ih => simp only [fetchWords, fetchWord, view.M, ih]

theorem fetchInstr_eq_of_sameProgramView : fetchInstr s₁ = fetchInstr s₂ := by
  obtain ⟨-, -, pc, -⟩ := id view
  simp only [fetchInstr, fetchWord, view.M, pc, fetchWords_eq_of_sameProgramView view]

theorem alike_step (ready₁ : s₁.status = .ready) (ready₂ : s₂.status = .ready) : alike (step s₁) (step s₂) := by
  rw [step_ready ready₁, step_ready ready₂, fetchInstr_eq_of_sameProgramView view]
  cases fetchInstr s₂ with
  | ok i => exact alike_exec view i
  | error p => exact alike_raise view _

end

/-- Settles O17: READY states with the same program view step alike. -/
theorem hiddenStateDoesNotInfluenceAStep : Obligations.HiddenStateDoesNotInfluenceAStep := by
  unfold Obligations.HiddenStateDoesNotInfluenceAStep
  exact fun _ _ t₁ ready₁ ready₂ view h => alike_step view ready₁ ready₂ t₁ h

end Sys2Proof.Machine
end

section
/-! PROOFS. The invariant `Sound`: one lemma for each operation that keeps it, then a step (O18), the reset state
(O2), and what the stored answer says of an ended run (O21). -/

namespace Sys2Proof.Machine

/-! ### Operations -/

theorem Sound.setM {s : State} (sound : Sound s) {d : Nat} (inArray : d < 32776) (v : Word) :
    Sound (s.setM d v) :=
  { sound with memory := Memory.wf_write sound.memory inArray v }

theorem Sound.setPc {s : State} (sound : Sound s) (p : Word) : Sound (s.setPc p) := { sound with }

theorem Sound.setStack {s : State} (sound : Sound s) {st : List Word} (within : withinCapacity (s.setStack st)) :
    Sound (s.setStack st) :=
  { sound with capacity := within }

theorem Sound.respond {s : State} (sound : Sound s) {r : Response} (agrees : answerAgrees (s.respond r)) :
    Sound (s.respond r) :=
  { sound with answer := agrees }

/-- Outside FAULTED nothing is recorded, so any other status may follow with its answer. -/
theorem Sound.answer_of_not_faulted {s : State} (sound : Sound s) (before : s.status ≠ .faulted) {st : Status}
    {r : Response} (after : st ≠ .faulted) (agrees : answerAgrees (s.answer st r)) : Sound (s.answer st r) :=
  have noCause : ¬ s.faultCause ≠ .none := mt sound.faultRecorded.mpr before
  { sound with faultRecorded := iff_of_false after noCause, answer := agrees }

theorem Sound.faultedWith {s t : State} (sound : Sound s) {cause : FaultCause} {info : Word}
    (named : cause ≠ .none) (taken : faultedWith s t cause info) : Sound t := by
  obtain ⟨status, recordedCause, recordedInfo, response, memory, stack, -, pending, wordCount, params⟩ := taken
  constructor
  case memory => rw [memory]; exact sound.memory
  case wordCount => rw [wordCount]; exact sound.wordCount
  case pendingAddr => rw [pending]; exact sound.pendingAddr
  case faultRecorded => rw [recordedCause]; exact iff_of_true status named
  case noFaultNoInfo => rw [recordedCause]; exact fun none => absurd none named
  case capacity => rw [withinCapacity, params, stack]; exact sound.capacity
  case answer => simp only [answerAgrees, status, response, recordedCause, recordedInfo]

/-- A stack with room for an entry has it within its capacity (10_state R37). -/
theorem Sound.push_within {s : State} (sound : Sound s) (room : s.stackFull = false) (v : Word) :
    withinCapacity (s.setStack (v :: s.stack)) := by
  intro n capacity
  have within : s.stack.length ≤ n := sound.capacity n capacity
  have notFull : s.stack.length ≠ n := by
    rintro rfl
    exact Bool.eq_false_iff.mp room ((stackFull_iff s).mpr capacity)
  exact Nat.lt_of_le_of_ne within notFull

theorem Sound.pop_within {s : State} (sound : Sound s) {v : Word} {st : List Word} (top : s.stack = v :: st) :
    withinCapacity (s.setStack st) := by
  intro n capacity
  have within : s.stack.length ≤ n := sound.capacity n capacity
  rw [top] at within
  exact Nat.le_of_succ_le within

/-! ### Steps -/

theorem Sound.answer_cont {s : State} (sound : Sound s) (ready : s.status = .ready) : Sound (s.answer .ready .cont) :=
  sound.answer_of_not_faulted (by simp [ready]) (by decide) ⟨by simp, by simp⟩

/-- A READY state may record the index it awaits input for: no answer of READY names it. -/
theorem Sound.await {s : State} (sound : Sound s) (ready : s.status = .ready) {a : Word} (inArray : a.toNat ≤ 32775) :
    Sound (State.answer { s with pendingAddr := a } .awaitInput (.awaitInput a)) :=
  have noCause : ¬ s.faultCause ≠ .none := mt sound.faultRecorded.mpr (by simp [ready])
  { sound with
    pendingAddr := inArray
    faultRecorded := iff_of_false (by simp) noCause
    answer := .inl rfl }

/-- Every effect of an instruction keeps the invariant. -/
theorem Effect.sound {i : Instr} {s t : State} (effect : Effect i s t) (ready : s.status = .ready)
    (sound : Sound s) : Sound t := by
  cases effect with
  | fault cause info named taken => exact sound.faultedWith named taken
  | store d v p inArray _ after => exact after ▸ ((sound.setM inArray v).setPc p).answer_cont ready
  | pop a d v p st _ index top after =>
    exact after ▸ (((sound.setStack (sound.pop_within top)).setM (dstIndex_lt index) v).setPc p).answer_cont ready
  | move p after => exact after ▸ (sound.setPc p).answer_cont ready
  | push v p _ room after =>
    exact after ▸ ((sound.setStack (sound.push_within room v)).setPc p).answer_cont ready
  | ret v st _ top after => exact after ▸ ((sound.setStack (sound.pop_within top)).setPc v).answer_cont ready
  | halt p after =>
    exact after ▸ (sound.setPc p).answer_of_not_faulted (by simp [ready]) (by decide) rfl
  | output c p after =>
    exact after ▸ (sound.setPc p).answer_of_not_faulted (by simp [ready]) (by decide) ⟨by simp, by simp⟩
  | await d p inArray after =>
    have index : (BitVec.ofNat 16 d).toNat = d := Nat.mod_eq_of_lt (by omega)
    exact after ▸ (sound.setPc p).await ready (by omega)

theorem Sound.step {s t : State} (sound : Sound s) (h : step s = .next t) : Sound t := by
  obtain ⟨ready, i, -, h⟩ | ⟨-, p, -, taken⟩ | ⟨awaiting, rfl⟩ | ⟨halted, rfl⟩ | ⟨faulted, rfl⟩ := step_next h
  · exact (exec_effect h).sound ready sound
  · exact sound.faultedWith (by decide) taken
  · exact sound.respond (by simp [answerAgrees, awaiting])
  · exact sound.respond (by simp [answerAgrees, halted])
  · exact sound.respond (by simp [answerAgrees, faulted])

/-- Settles O18: a step has an effect, takes a fetch fault, or repeats the answer of its status. -/
theorem stepKeepsTheInvariant : Obligations.StepKeepsTheInvariant := by
  unfold Obligations.StepKeepsTheInvariant
  exact fun _ _ => Sound.step

/-! ### LOAD and reset -/

theorem load_sound (p : Params) (bytes : List Byte) : Sound (load p bytes) where
  memory := Memory.wfFrom_ofWords 0 _ (by rw [List.length_take]; omega)
  wordCount := by rw [load_wordCount_toNat]; omega
  pendingAddr := Nat.zero_le _
  faultRecorded := iff_of_false (by simp [load]) (by simp [load])
  noFaultNoInfo := fun _ => rfl
  capacity := fun _ _ => Nat.zero_le _
  answer := ⟨by simp [load], by simp [load]⟩

theorem reset_eq_load : State.reset = load Params.standard [] := rfl

/-- The 22 mnemonics are upper-case letters (30_encoding R97). -/
theorem all_isUpper_of_mnemonicOf {op : Word} {name : Text} (known : mnemonicOf op = some name) :
    name.all Char.isUpper = true := by
  unfold mnemonicOf at known
  split at known
  case h_23 => cases known
  all_goals
    cases known
    rfl

theorem not_mem_of_mnemonicOf {op : Word} {name : Text} (known : mnemonicOf op = some name) {c : Char}
    (notUpper : c.isUpper = false) : c ∉ name := by
  intro member
  have upper := List.all_eq_true.mp (all_isUpper_of_mnemonicOf known) c member
  exact Bool.eq_false_iff.mp notUpper upper

theorem paramsAllowed_standard : paramsAllowed Params.standard := by
  refine ⟨by decide, by decide, by decide, fun op known => ?placeholder⟩
  case placeholder => exact not_mem_of_mnemonicOf known (c := '?') rfl (by decide)

/-- Settles O1: both states are the same record, whose memory lists no cell. -/
theorem resetIsTheLoadOfAnEmptyImage : Obligations.ResetIsTheLoadOfAnEmptyImage := by
  unfold Obligations.ResetIsTheLoadOfAnEmptyImage
  exact ⟨reset_eq_load, fun _ => rfl, fun _ => rfl, rfl, rfl, rfl, rfl, rfl, rfl, rfl⟩

/-- Settles O2: reset is a LOAD, and no mnemonic holds a question mark. -/
theorem resetSatisfiesTheInvariant : Obligations.ResetSatisfiesTheInvariant := by
  unfold Obligations.ResetSatisfiesTheInvariant
  exact ⟨reset_eq_load ▸ load_sound Params.standard [], paramsAllowed_standard⟩

/-! ### Ended runs -/

/-- The answer an ended state gives is the one it already holds. -/
theorem step_of_ended {s : State} (sound : Sound s) (ended : Ended s) : step s = .next s := by
  have agrees := sound.answer
  unfold answerAgrees at agrees
  obtain halted | faulted := ended
  · simp only [halted] at agrees
    rw [step_of_halted halted, ← agrees]
    rfl
  · simp only [faulted] at agrees
    rw [step_of_faulted faulted, ← agrees]
    rfl

theorem run_succ_of_next {M : Host.Core} (n : Nat) {s t : M.State} (h : M.step s = .next t) :
    M.run (n + 1) s = M.run n t := by
  rw [Host.Core.run, h]

/-- Settles O21: an ended state is a fixed point of STEP, by induction on the number of steps. -/
theorem endedRunStaysAsItIs : Obligations.EndedRunStaysAsItIs := by
  unfold Obligations.EndedRunStaysAsItIs
  intro n s sound ended
  induction n with
  | zero => rfl
  | succ n ih =>
    have fixed : core.step s = .next s := step_of_ended sound ended
    exact (run_succ_of_next n fixed).trans ih

end Sys2Proof.Machine
end

section
/-! PROOFS. Requests (49_host_interface R250 to R263): everything a served request can have done to the state, said
once (`serve_service`), and from it what every request keeps; then the debug write ports (R262). -/

namespace Sys2Proof.Machine

/-! ### What a served request does -/

/-- The ways a request leads from one state to the next. -/
inductive Service (r : Request) (s t : State) : Prop
  /-- A query, an accessor, or a request that was turned down. -/
  | none (after : t = s)
  | load (bytes : List Byte) (isLoad : r = .load bytes) (after : t = Machine.load s.params bytes)
  | step (h : Machine.step s = .next t)
  /-- SUPPLY_INPUT was accepted. -/
  | supply (a : Nat) (v : Word) (awaiting : s.status = .awaitInput) (inArray : a < 32776)
      (after : t = { s.setM a v with status := .ready })
  /-- A debug write to a register or a cell. -/
  | cell (a : Nat) (v : Word) (inArray : a < 32776) (after : t = s.setM a v)
  /-- A debug write to a stack entry. -/
  | entry (j : Nat) (v : Word) (after : t = s.setStack (s.stack.set j v))
  /-- A debug write to the pc. -/
  | pc (p : Word) (after : t = s.setPc p)

theorem answerQuery_reply {α : Type} {a : Option α} {f : α → Reply} {s t : State} {q : Reply}
    (h : answerQuery a f s = .reply q t) : t = s := by
  obtain ⟨q', kept⟩ := answerQuery_keeps_state a f s
  cases kept.symm.trans h
  rfl

theorem debugWrite_reply {inRange : Bool} {s u t : State} {q : Reply} (h : debugWrite inRange s u = .reply q t) :
    t = s ∨ inRange = true ∧ t = u := by
  unfold debugWrite at h
  split at h
  · split at h
    · rename_i inside
      cases h
      exact .inr ⟨inside, rfl⟩
    · cases h
      exact .inl rfl
  · cases h
    exact .inl rfl

theorem supplyInput_service {r : Request} {addr v : Word} {s t : State} {q : Reply}
    (h : supplyInput addr v s = .reply q t) : Service r s t := by
  by_cases awaiting : s.status = .awaitInput
  · by_cases inArray : addr.toNat ≤ 32775
    · cases (supplyInput_awaited v awaiting inArray).symm.trans h
      exact .supply addr.toNat v awaiting (by omega) rfl
    · cases (supplyInput_outside v awaiting (by omega)).symm.trans h
      exact .none rfl
  · cases (supplyInput_not_awaited addr v awaiting).symm.trans h
    exact .none rfl

theorem serveStep_reply {s t : State} {q : Reply} (h : serveStep s = .reply q t) : step s = .next t := by
  unfold serveStep at h
  split at h
  case h_1 u next =>
    cases h
    exact next
  case h_2 => cases h
  case h_3 f _ => exact nomatch f

/-- Everything a request that got its reply can have done. -/
theorem serve_service {r : Request} {s t : State} {q : Reply} (h : serve r s = .reply q t) : Service r s t := by
  cases r with
  | load bytes =>
    cases h
    exact .load bytes rfl rfl
  | step => exact .step (serveStep_reply h)
  | supplyInput addr v => exact supplyInput_service h
  | instructionLength addr | disassemble addr => exact .none (answerQuery_reply h)
  | readRegs | readPc | readMem | readStack | readWordCount | readStatus =>
    cases h
    exact .none rfl
  | writeReg i v =>
    obtain kept | ⟨inRange, after⟩ := debugWrite_reply h
    · exact .none kept
    · have index : i < 8 := of_decide_eq_true inRange
      exact .cell (32768 + i) v (by omega) after
  | writeMem i v =>
    obtain kept | ⟨inRange, after⟩ := debugWrite_reply h
    · exact .none kept
    · have index : i < 32768 := of_decide_eq_true inRange
      exact .cell i v (by omega) after
  | writeStack j v =>
    obtain kept | ⟨-, after⟩ := debugWrite_reply h
    · exact .none kept
    · exact .entry _ v after
  | writePc v =>
    obtain kept | ⟨-, after⟩ := debugWrite_reply h
    · exact .none kept
    · exact .pc v after

/-! ### What every request keeps -/

/-- READY, which an accepted SUPPLY_INPUT sets, follows either answer of AWAIT_INPUT. -/
theorem Sound.supply {s : State} (sound : Sound s) (awaiting : s.status = .awaitInput) {a : Nat}
    (inArray : a < 32776) (v : Word) : Sound { s.setM a v with status := .ready } := by
  have noCause : ¬ s.faultCause ≠ .none := mt sound.faultRecorded.mpr (by simp [awaiting])
  have answered := sound.answer
  simp only [answerAgrees, awaiting] at answered
  have agrees : s.response ≠ .halt ∧ ∀ c i, s.response ≠ .fault c i := by
    obtain answered | answered := answered <;> simp [answered]
  exact { sound.setM inArray v with
    faultRecorded := iff_of_false (by simp) noCause
    answer := agrees }

theorem Service.sound {r : Request} {s t : State} (service : Service r s t) (sound : Sound s) : Sound t := by
  cases service with
  | none after => exact after ▸ sound
  | load bytes _ after => exact after ▸ load_sound s.params bytes
  | step h => exact sound.step h
  | supply a v awaiting inArray after => exact after ▸ sound.supply awaiting inArray v
  | cell a v inArray after => exact after ▸ sound.setM inArray v
  | entry j v after =>
    have within : withinCapacity (s.setStack (s.stack.set j v)) := fun n capacity => by
      rw [State.setStack_stack, List.length_set]
      exact sound.capacity n capacity
    exact after ▸ sound.setStack within
  | pc p after => exact after ▸ sound.setPc p

/-- Settles O19: each way of serving a request keeps the invariant. -/
theorem everyRequestKeepsTheInvariant : Obligations.EveryRequestKeepsTheInvariant := by
  unfold Obligations.EveryRequestKeepsTheInvariant
  exact fun _ _ _ _ sound h => (serve_service h).sound sound

theorem serveAll_sound {rs : List Request} {s t : State} (sound : Sound s) (h : serveAll rs s = some t) :
    Sound t := by
  induction rs generalizing s with
  | nil =>
    cases h
    exact sound
  | cons r rs ih =>
    cases served : serve r s with
    | reply q u =>
      simp only [serveAll, served] at h
      exact ih ((serve_service served).sound sound) h
    | stopped _ =>
      simp only [serveAll, served] at h
      cases h

/-- Settles O20: LOAD establishes the invariant, and every request of the list keeps it. -/
theorem everyRunFromLoadSatisfiesTheInvariant : Obligations.EveryRunFromLoadSatisfiesTheInvariant := by
  unfold Obligations.EveryRunFromLoadSatisfiesTheInvariant
  exact fun p bytes _ _ => serveAll_sound (load_sound p bytes)

/-- In HALTED and FAULTED a step changes the answer at most. -/
theorem step_of_ended_respond {s t : State} (ended : Ended s) (h : step s = .next t) : ∃ r, t = s.respond r := by
  obtain halted | faulted := ended
  · cases (step_of_halted halted).symm.trans h
    exact ⟨_, rfl⟩
  · cases (step_of_faulted faulted).symm.trans h
    exact ⟨_, rfl⟩

/-- Settles O22: of what a request can do, only LOAD and an accepted SUPPLY_INPUT set the status, and no input is
awaited in an ended state. -/
theorem onlyLoadLeavesAnEndedStatus : Obligations.OnlyLoadLeavesAnEndedStatus := by
  unfold Obligations.OnlyLoadLeavesAnEndedStatus
  intro r s q t ended notLoad h
  cases serve_service h
  case load bytes isLoad _ => exact absurd isLoad (notLoad bytes)
  case step h =>
    obtain ⟨_, rfl⟩ := step_of_ended_respond ended h
    exact ⟨rfl, rfl, rfl⟩
  case supply awaiting _ _ => simp [Ended, awaiting] at ended
  all_goals
    rename_i after
    subst after
    exact ⟨rfl, rfl, rfl⟩

theorem step_sameFixed {s t : State} (h : step s = .next t) : sameFixed s t := by
  obtain ⟨-, i, -, h⟩ | ⟨-, p, -, taken⟩ | ⟨-, rfl⟩ | ⟨-, rfl⟩ | ⟨-, rfl⟩ := step_next h
  · exact (exec_effect h).sameFixed
  · exact taken.sameFixed
  all_goals exact ⟨rfl, rfl⟩

/-- Settles O23: LOAD carries the parameters over and alone sets the word count. -/
theorem wordCountAndParametersAreFixed : Obligations.WordCountAndParametersAreFixed := by
  unfold Obligations.WordCountAndParametersAreFixed
  intro r s q t h
  cases serve_service h
  case load bytes isLoad after => exact ⟨after ▸ rfl, fun notLoad => absurd isLoad (notLoad bytes)⟩
  case step h =>
    obtain ⟨wordCount, params⟩ := step_sameFixed h
    exact ⟨params, fun _ => wordCount⟩
  all_goals
    rename_i after
    subst after
    exact ⟨rfl, fun _ => rfl⟩

/-! ### The debug write ports -/

theorem debugWrite_accepted {s : State} (present : s.params.debugWrite = true) {inRange : Bool}
    (inside : inRange = true) (t : State) : debugWrite inRange s t = .reply .ok t := by
  rw [debugWrite, if_pos present, if_pos inside]

theorem debugWrite_rejected {s : State} (present : s.params.debugWrite = true) {inRange : Bool}
    (outside : inRange = false) (t : State) : debugWrite inRange s t = .reply .badIndex s := by
  rw [debugWrite, if_pos present, if_neg (Bool.eq_false_iff.mp outside)]

theorem debugWrite_absent {s : State} (absent : s.params.debugWrite = false) (inRange : Bool) (t : State) :
    debugWrite inRange s t = .reply .noPort s := by
  rw [debugWrite, if_neg (Bool.eq_false_iff.mp absent)]

/-- An entry counted from the bottom is the one counted from the top in the reversed stack. -/
theorem reverse_set_from_bottom {st : List Word} {j : Nat} (inside : j < st.length) (v : Word) :
    (st.set (st.length - 1 - j) v).reverse = st.reverse.set j v := by
  apply List.ext_getElem
  · simp
  · intro k h h'
    have place : st.length - 1 - j = st.length - 1 - k ↔ j = k := by
      simp only [List.length_reverse, List.length_set] at h
      omega
    simp only [List.getElem_reverse, List.getElem_set, List.length_set, place]

/-- Settles O27: every write port is `debugWrite`, whose three answers are the three lemmas above. -/
theorem debugWritesTouchOnePlace : Obligations.DebugWritesTouchOnePlace := by
  unfold Obligations.DebugWritesTouchOnePlace
  refine fun i v s => ⟨fun present => ⟨?register, ?noRegister, ?cell, ?noCell, ?entry, ?noEntry, ?pc⟩,
    fun absent => ?absent⟩
  case register =>
    exact fun r => ⟨_, debugWrite_accepted present (decide_eq_true r.isLt) _, State.M_setM_self s _ v,
      fun _ other => State.M_setM_ne s v other, rfl⟩
  case noRegister => exact fun outside => debugWrite_rejected present (decide_eq_false (Nat.not_lt.mpr outside)) _
  case cell =>
    exact fun inside => ⟨_, debugWrite_accepted present (decide_eq_true inside) _, State.M_setM_self s i v,
      fun _ other => State.M_setM_ne s v other, rfl⟩
  case noCell => exact fun outside => debugWrite_rejected present (decide_eq_false (Nat.not_lt.mpr outside)) _
  case entry =>
    exact fun inside => ⟨_, debugWrite_accepted present (decide_eq_true inside) _,
      reverse_set_from_bottom inside v, rfl⟩
  case noEntry => exact fun outside => debugWrite_rejected present (decide_eq_false (Nat.not_lt.mpr outside)) _
  case pc => exact ⟨_, debugWrite_accepted present rfl _, rfl, rfl⟩
  case absent =>
    exact ⟨debugWrite_absent absent _ _, debugWrite_absent absent _ _, debugWrite_absent absent _ _,
      debugWrite_absent absent _ _⟩

end Sys2Proof.Machine
end

section
/-! PROOFS. The text's spaces (48_introspection R233 to R235): one before each operand, and none in a mnemonic, an
operand or the placeholder. -/

namespace Sys2Proof.Machine

theorem space_not_mem_toDigits (n : Nat) : ' ' ∉ Nat.toDigits 10 n := by
  intro member
  have digit : ' '.isDigit = true := Nat.isDigit_of_mem_toDigits (by decide) (by decide) member
  cases digit

theorem space_not_mem_render (w : Word) : ' ' ∉ render w := by
  unfold render
  split
  · exact List.not_mem_cons_of_ne_of_not_mem (by decide) (space_not_mem_toDigits _)
  · exact space_not_mem_toDigits _

theorem count_space_renderOperands (s : State) (a n : Nat) : (renderOperands s a n).count ' ' = n := by
  induction n generalizing a with
  | zero => rfl
  | succ n ih =>
    rw [renderOperands, List.cons_append, List.count_cons_self, List.count_append,
      List.count_eq_zero.mpr (space_not_mem_render _), ih, Nat.zero_add]

/-- Settles O31: a mnemonic has a space before each of its operands, and the placeholder, which has none, stands for
opcode words without operands. -/
theorem disassembledOperandCountMatchesLength : Obligations.DisassembledOperandCountMatchesLength := by
  unfold Obligations.DisassembledOperandCountMatchesLength
  rintro s addr n text ⟨-, -, noSpace, -⟩ length shown
  by_cases inside : addr.toNat ≤ 32775
  case neg => cases (instructionLength_of_gt s (by omega)).symm.trans length
  cases (instructionLength_of_le s inside).symm.trans length
  cases mnemonic : mnemonicOf (s.M addr.toNat) with
  | none =>
    have high : 21 < (s.M addr.toNat).toNat := by
      by_contra low
      obtain ⟨name, known⟩ := exists_mnemonicOf_of_le (Nat.le_of_not_lt low)
      cases mnemonic.symm.trans known
    cases (disassemble_unknown s inside mnemonic).symm.trans shown
    rw [List.count_eq_zero.mpr noSpace, Laws.EncodedLength.operandCount_unknown high]
  | some name =>
    rw [disassemble_known s inside mnemonic] at shown
    split at shown
    · cases shown
    · cases shown
      rw [List.count_append, List.count_eq_zero.mpr (not_mem_of_mnemonicOf mnemonic rfl),
        count_space_renderOperands, Nat.zero_add, Nat.add_comm]

end Sys2Proof.Machine
end

section
/-! PROOFS. The ALU's laws (43_alu R200, R202): masking after wrap-around, and what the eight instructions store for
operands up to 32767. -/

namespace Sys2Proof.Machine

/-- The mask 0x7FFF reduces modulo 32768. -/
theorem toNat_and_mask (x : Word) : (x &&& 0x7FFF).toNat = x.toNat % 32768 := by
  have mask : (0x7FFF : Word).toNat = 2 ^ 15 - 1 := rfl
  rw [BitVec.toNat_and, mask, Nat.and_two_pow_sub_one_eq_mod]

theorem toNat_ofNat_mod (n : Nat) : (BitVec.ofNat 16 (n % 32768)).toNat = n % 32768 := by
  rw [BitVec.toNat_ofNat]
  omega

/-- Settles O55: 32768 divides 65536, so reducing modulo 65536 first changes no residue modulo 32768. -/
theorem wrappingThenMaskingIsExact : Obligations.WrappingThenMaskingIsExact := by
  unfold Obligations.WrappingThenMaskingIsExact
  have divides : 32768 ∣ 2 ^ 16 := by decide
  refine fun x y => ⟨BitVec.eq_of_toNat_eq ?sum, BitVec.eq_of_toNat_eq ?product⟩
  case sum => rw [aluAdd, toNat_ofNat_mod, toNat_and_mask, BitVec.toNat_add, Nat.mod_mod_of_dvd _ divides]
  case product => rw [aluMul, toNat_ofNat_mod, toNat_and_mask, BitVec.toNat_mul, Nat.mod_mod_of_dvd _ divides]

theorem truthWord_le (b : Bool) : (truthWord b).toNat ≤ 32767 := by
  cases b <;> decide

theorem ofNat_mod_le (n : Nat) : (BitVec.ofNat 16 (n % 32768)).toNat ≤ 32767 := by
  rw [toNat_ofNat_mod]
  omega

theorem ofNat_complement_le (n : Nat) : (BitVec.ofNat 16 (32767 - n)).toNat ≤ 32767 := by
  rw [BitVec.toNat_ofNat]
  omega

theorem aluMod_le {x : Word} (y : Word) (low : x.toNat ≤ 32767) : (aluMod x y).toNat ≤ 32767 := by
  have remainder : x.toNat % y.toNat ≤ x.toNat := Nat.mod_le _ _
  rw [aluMod, BitVec.toNat_ofNat]
  omega

theorem aluAnd_le {x : Word} (y : Word) (low : x.toNat ≤ 32767) : (aluAnd x y).toNat ≤ 32767 := by
  rw [aluAnd, BitVec.toNat_and]
  exact Nat.and_le_left.trans low

theorem aluOr_le {x y : Word} (lowX : x.toNat ≤ 32767) (lowY : y.toNat ≤ 32767) : (aluOr x y).toNat ≤ 32767 := by
  have below : x.toNat ||| y.toNat < 2 ^ 15 := Nat.or_lt_two_pow (Nat.lt_succ_of_le lowX) (Nat.lt_succ_of_le lowY)
  rw [aluOr, BitVec.toNat_or]
  omega

/-- In every state in which b and c resolve to x and y, the instruction, n words long, stores v in cell d. -/
def storesFrom (i : Instr) (b c : Src) (x y : Word) (n d : Nat) (v : Word) : Prop :=
  ∀ s, srcValue b s = .ok x → srcValue c s = .ok y → exec i s = storeAndContinue s n d v

/-- An instruction whose meaning is `alu3` stores what its function gives. -/
theorem exists_storesFrom_of_alu3 {i : Instr} {g : Word → Word → Word} {a : Dst} {b c : Src} {x y : Word} {d : Nat}
    (meaning : ∀ s, exec i s = alu3 g a b c s) (index : dstIndex a = .ok d) (low : (g x y).toNat ≤ 32767) :
    ∃ n v, v.toNat ≤ 32767 ∧ storesFrom i b c x y n d v := by
  refine ⟨4, g x y, low, fun s first second => ?_⟩
  rw [meaning, alu3, withDst_ok index, withSrc_ok first, withSrc_ok second]

theorem mod_storesFrom {a : Dst} {b c : Src} {x y : Word} {d : Nat} (index : dstIndex a = .ok d) (nonzero : y ≠ 0) :
    storesFrom (.mod a b c) b c x y 4 d (aluMod x y) := by
  intro s first second
  rw [exec_of_resolved mod_resolvesInOrder index first second, modOfValues_of_ne_zero s d x nonzero]

theorem not_storesFrom {a : Dst} {b c : Src} {x y : Word} {d : Nat} (index : dstIndex a = .ok d)
    (low : x.toNat ≤ 32767) : storesFrom (.not a b) b c x y 3 d (BitVec.ofNat 16 (32767 - x.toNat)) := by
  intro s value _
  rw [exec_not_of_resolved index value, notOfValue_some d (aluNot_low _ low)]

theorem faulted_of_mod_zero {a : Dst} {b c : Src} {s t : State} {d : Nat} {x : Word} (index : dstIndex a = .ok d)
    (dividend : srcValue b s = .ok x) (divisor : srcValue c s = .ok 0) (h : exec (.mod a b c) s = .next t) :
    t.status = .faulted := by
  obtain ⟨u, run, taken⟩ := mod_zero_takesFault index dividend divisor
  cases h.symm.trans run
  exact taken.1

/-- On operands up to 32767 an ALU instruction that does not fault stores one such number, the same in every
state. -/
theorem alu_storesFrom {i : Instr} {a : Dst} {b c : Src} {d : Nat} {x y : Word} {s t : State}
    (member : i ∈ [Instr.eq a b c, .gt a b c, .add a b c, .mul a b c, .mod a b c, .and a b c, .or a b c, .not a b])
    (index : dstIndex a = .ok d) (first : srcValue b s = .ok x) (second : srcValue c s = .ok y)
    (lowX : x.toNat ≤ 32767) (lowY : y.toNat ≤ 32767) (h : exec i s = .next t) (ready : t.status = .ready) :
    ∃ n v, v.toNat ≤ 32767 ∧ storesFrom i b c x y n d v := by
  simp only [List.mem_cons, List.not_mem_nil, or_false] at member
  obtain rfl | rfl | rfl | rfl | rfl | rfl | rfl | rfl := member
  case inr.inr.inr.inr.inl =>
    have nonzero : y ≠ 0 := by
      rintro rfl
      cases ready.symm.trans (faulted_of_mod_zero index first second h)
    exact ⟨4, _, aluMod_le y lowX, mod_storesFrom index nonzero⟩
  · exact exists_storesFrom_of_alu3 (fun _ => rfl) index (truthWord_le _)
  · exact exists_storesFrom_of_alu3 (fun _ => rfl) index (truthWord_le _)
  · exact exists_storesFrom_of_alu3 (g := aluAdd) (fun _ => rfl) index (ofNat_mod_le _)
  · exact exists_storesFrom_of_alu3 (g := aluMul) (fun _ => rfl) index (ofNat_mod_le _)
  · exact exists_storesFrom_of_alu3 (fun _ => rfl) index (aluAnd_le y lowX)
  · exact exists_storesFrom_of_alu3 (fun _ => rfl) index (aluOr_le lowX lowY)
  · exact ⟨3, _, ofNat_complement_le _, not_storesFrom index lowX⟩

/-- Settles O56: the parameters take no part in resolving the operands or in the number stored. -/
theorem numbersGiveNumbersUnderEveryNotHigh : Obligations.NumbersGiveNumbersUnderEveryNotHigh := by
  unfold Obligations.NumbersGiveNumbersUnderEveryNotHigh
  intro i a b c s t d x y h member index first second lowX lowY run ready
  obtain ⟨n, v, low, stores⟩ := alu_storesFrom member index first second lowX lowY run ready
  cases (stores s first second).symm.trans run
  refine ⟨?small, _, stores _ ((srcValue_congr b rfl).trans first) ((srcValue_congr c rfl).trans second), rfl, rfl⟩
  case small => exact (State.M_setM_self s d v).symm ▸ low

end Sys2Proof.Machine
end
